-- ==== Sys2Proof/Word.lean ====
section
/-! DEFINITION. The word types of the block: the 8-bit register byte (R10), the 20-bit command word (R59),
the level of a pin (R17), a bit position of `REG` (R26(a)) and the eight cells of a shift stage (R24). -/

namespace Sys2Proof

/-- An 8-bit value: `REG` (R10), `DUTY[s]` (R21), `OUT` (R24), a motor index or a speed (R6). -/
abbrev Byte := BitVec 8

/-- A command word `CMD[19:0]` (R59). -/
abbrev Word := BitVec 20

/-- A level of a pin or the value of a bit: `false` is 0, `true` is 1 (R17). -/
abbrev Level := Bool

/-- A bit position 0 to 7 of `REG` (R26(a)). -/
abbrev Pos := Fin 8

/-- The eight one-bit cells of the shift stage `SR` (R24): `qi` is `SR[i]`. A bit enters at `q0` and moves up (R39). -/
structure Stage where
  q0 : Level
  q1 : Level
  q2 : Level
  q3 : Level
  q4 : Level
  q5 : Level
  q6 : Level
  q7 : Level
deriving DecidableEq, Repr, Inhabited

end Sys2Proof
end

