-- ==== Sys2Proof/Config.lean ====
section
/-! DEFINITION. What one instance of the block fixes: its board parameters (R6, R8, R14, R54 to R57), and the
values that no source gives (R18, R28), as constants that nothing in Lean can evaluate.

A `Board` can only be built with tables that obey R54 to R57: an instance whose table breaks them is not an
instance of this hardware (R54, 93_implementation_defined.md U15; log entry 2). -/

namespace Sys2Proof

/-- The board wiring variant: 0 = A, 1 = B (R6, R14). -/
inductive Variant
  | A
  | B
deriving DecidableEq, Repr, Inhabited

/-- A motor slot, 1 to 4 (R26(b)). The two servo slots are not in this space (R23, 90_conflicts.md C4). -/
inductive Slot
  | one
  | two
  | three
  | four
deriving DecidableEq, Repr, Inhabited

/-- One value for each motor slot: the shape of `DUTY[1..4]` and of one variant's row of a table (R14, R21). -/
structure Quad (α : Type) where
  one   : α
  two   : α
  three : α
  four  : α
deriving DecidableEq, Repr, Inhabited

/-- The positions in `REG` of a slot's A bit and B bit (R53). -/
structure BitPair where
  bitA : Pos
  bitB : Pos
deriving DecidableEq, Repr, Inhabited

/-- A constant table indexed by the variant and the slot (R14). -/
structure Table (α : Type) where
  A : Quad α
  B : Quad α
deriving DecidableEq, Repr, Inhabited

/-- The four pins the block drives (R17). -/
inductive Pin
  | latch
  | data
  | clock
  | enableN
deriving DecidableEq, Repr, Inhabited

/-- `PIN_MAP`: the physical pin numbers of the four pins (R6); no rule depends on them. -/
structure PinMap where
  latch   : Nat
  data    : Nat
  clock   : Nat
  enableN : Nat
deriving DecidableEq, Repr, Inhabited

/-- The eight bit positions that one variant's row of `PAIR_TABLE` names, slot by slot, A before B. -/
def Quad.positions (q : Quad BitPair) : List Pos :=
  [q.one.bitA, q.one.bitB, q.two.bitA, q.two.bitB, q.three.bitA, q.three.bitB, q.four.bitA, q.four.bitB]

/-- One variant's row of a table as a list, slots 1 to 4. -/
def Quad.toList {α : Type} (q : Quad α) : List α :=
  [q.one, q.two, q.three, q.four]

/-- Slots 1 and 2 agree in both variants; slots 3 and 4 are exchanged (R55, R56, R57). -/
def Table.swapped {α : Type} [DecidableEq α] (t : Table α) : Bool :=
  decide (t.B.one = t.A.one) && decide (t.B.two = t.A.two) &&
    decide (t.B.three = t.A.four) && decide (t.B.four = t.A.three)

/-- R54 for each variant, R55 and R56. That every position is 0 to 7 is in the type `Pos`. -/
def pairTableLegal (t : Table BitPair) : Bool :=
  decide t.A.positions.Nodup && decide t.B.positions.Nodup && t.swapped

/-- R57: the four PWM pins of a variant are distinct and the two variants have the same shape as in R55, R56. -/
def pwmTableLegal (t : Table Nat) : Bool :=
  decide t.A.toList.Nodup && decide t.B.toList.Nodup && t.swapped

/-- The parameters of one instance (R6): constants that no command reads back or changes (R8, R14). -/
structure Board where
  /-- `VARIANT` -/
  variant   : Variant
  /-- `PAIR_TABLE[v][s]` -/
  pairTable : Table BitPair
  /-- `PWM_TABLE[v][s]`: a PWM pin identifier, at the boundary only -/
  pwmTable  : Table Nat
  /-- `PIN_MAP` -/
  pinMap    : PinMap
  /-- R54 to R57: no other table is this hardware's. -/
  legal     : (pairTableLegal pairTable && pwmTableLegal pwmTable) = true := by decide
deriving DecidableEq, Repr

/-! ### The open parameters (R6; 92_eei_decisions.md D6, D17, D20; log entry 1)

No source gives a number. A legal `PAIR_TABLE` row is a way of laying the eight roles (A and B of slots 1 to 4)
on the eight positions, that is a permutation of `Pos`; a legal `PWM_TABLE` row is four distinct pins. -/

/-- `VARIANT`, open. -/
opaque Config.variant : Variant

/-- Role 2(s-1) is the A bit and role 2(s-1)+1 the B bit of slot s under variant A; their positions are open. -/
opaque Config.wiring : Equiv.Perm Pos

/-- The PWM pin of slot s under variant A is the image of s; open. -/
opaque Config.pwmWiring : Equiv.Perm Nat

/-- `PIN_MAP`, open. -/
opaque Config.pinMap : PinMap

/-- A row of variant A becomes the table: variant B exchanges the entries of slots 3 and 4 (R55, R56, D7). -/
def Table.ofRow {α : Type} (q : Quad α) : Table α :=
  { A := q, B := { one := q.one, two := q.two, three := q.four, four := q.three } }

/-- The row of variant A that a laying out of the eight roles gives. -/
def pairRow (w : Equiv.Perm Pos) : Quad BitPair :=
  { one   := { bitA := w 0, bitB := w 1 }
    two   := { bitA := w 2, bitB := w 3 }
    three := { bitA := w 4, bitB := w 5 }
    four  := { bitA := w 6, bitB := w 7 } }

/-- The row of variant A that a numbering of the PWM pins gives. -/
def pwmRow (w : Equiv.Perm Nat) : Quad Nat :=
  { one := w 1, two := w 2, three := w 3, four := w 4 }

theorem pairTableLegal_ofRow (w : Equiv.Perm Pos) : pairTableLegal (Table.ofRow (pairRow w)) = true := by
  simp [pairTableLegal, Table.ofRow, pairRow, Quad.positions, Table.swapped, w.injective.eq_iff]

theorem pwmTableLegal_ofRow (w : Equiv.Perm Nat) : pwmTableLegal (Table.ofRow (pwmRow w)) = true := by
  simp [pwmTableLegal, Table.ofRow, pwmRow, Quad.toList, Table.swapped, w.injective.eq_iff]

/-- The instance's board: every legal choice of the open parameters, and no other. -/
def Config.board : Board :=
  { variant   := Config.variant
    pairTable := Table.ofRow (pairRow Config.wiring)
    pwmTable  := Table.ofRow (pwmRow Config.pwmWiring)
    pinMap    := Config.pinMap
    legal     := by rw [pairTableLegal_ofRow, pwmTableLegal_ofRow]; rfl }

/-! ### Values that no source gives -/

/-- `draw()` (00_scope.md section 5): the level number n that no source fixes. The step applies it to the counter
`draws` of the state and moves the counter on, so that no two uses need agree (log entry 4). -/
opaque Config.draw : Nat → Level

/-- `REG` at power-on: unspecified (R28, U9; log entry 3). -/
opaque Config.powerOnReg : Byte

/-- `DUTY[1..4]` at power-on: unspecified (R28, U11; log entry 3). -/
opaque Config.powerOnDuty : Quad Byte

/-- The downstream shift stage `SR` at power-on: unspecified (R28, U10; log entry 3). -/
opaque Config.powerOnShift : Stage

/-- The downstream output stage `OUT` at power-on: unspecified (R28, U10; log entry 3). -/
opaque Config.powerOnOut : Byte

end Sys2Proof
end

