-- ==== Sys2Proof/Syntax.lean ====
section
/-! DEFINITION. The five commands of spec/opcode_table.json as one inductive type, with their operands as the
document's signatures give them (R60, R68). -/

namespace Sys2Proof

/-- A direction (R50), in the numeric order of its code. -/
inductive Direction
  | release
  | forward
  | backward
  | brake
deriving DecidableEq, Repr

/-- A command (R60 to R65). -/
inductive Instr
  /-- `NEW maxspeed` (R61, R80) -/
  | new (maxspeed : Bool)
  /-- `SETDIR motor, dir` (R62, R82) -/
  | setDir (motor : Byte) (dir : Direction)
  /-- `SETSPEED motor, speed` (R63, R84) -/
  | setSpeed (motor : Byte) (speed : Byte)
  /-- `REGINIT` (R64, R71) -/
  | regInit
  /-- `SETPAIR bitA, valueA, bitB, valueB` (R65, R72) -/
  | setPair (bitA : Pos) (valueA : Bool) (bitB : Pos) (valueB : Bool)
deriving DecidableEq, Repr

end Sys2Proof
end

