-- ==== Sys2Proof/WellFormed.lean ====
section
/-! DEFINITION. The one precondition on operands that the layout of a command word does not enforce: `bitA ≠ bitB`
of `SETPAIR` (R65, R66(b)). Every other value of every operand field is legal (R66(e)) and in the field's type. -/

namespace Sys2Proof

/-- The command has the meaning the spec gives it, once the block is constructed (R66(b), R66(e)). -/
def Instr.wellFormed : Instr → Bool
  | .new _ => true
  | .setDir _ _ => true
  | .setSpeed _ _ => true
  | .regInit => true
  | .setPair bitA _ bitB _ => decide (bitA ≠ bitB)

end Sys2Proof
end

