-- ==== Sys2Proof/Decode.lean ====
section
/-! DEFINITION. The command word: decoder and encoder (R59 to R66), and the direction code (R50). -/

namespace Sys2Proof

/-- Why a word is no command. -/
inductive DecodeError
  /-- `CMD[19:16]` is 0x3 to 0x7 or 0xA to 0xF (R66(a)): `RF_RESERVED_OPCODE`. -/
  | reservedOpcode (op : BitVec 4)
deriving DecidableEq, Repr

/-- `v[lo+len-1:lo]` (00_scope.md section 5). -/
def bits (w : Word) (lo len : Nat) : BitVec len := w.extractLsb' lo len

/-- `CMD[19:16]` (R59). -/
def opcode (w : Word) : BitVec 4 := bits w 16 4

/-- The code of a direction: bit 0 = A, bit 1 = B (R50). -/
def Direction.code : Direction → BitVec 2
  | .release => 0b00#2
  | .forward => 0b01#2
  | .backward => 0b10#2
  | .brake => 0b11#2

/-- The direction of a code; every code is legal (R50). -/
def directionOfCode (d : BitVec 2) : Direction :=
  if d = 0b00#2 then .release
  else if d = 0b01#2 then .forward
  else if d = 0b10#2 then .backward
  else .brake

/-- A bit position as its 3-bit field (R65). -/
def posCode (i : Pos) : BitVec 3 := BitVec.ofFin i

/-- The bit position in a 3-bit field; every value is legal (R33, R65). -/
def posOfCode (c : BitVec 3) : Pos := c.toFin

/-- The decoder (R60 to R65). Reserved payload bits are ignored (R66(c)); a reserved opcode is no command (R66(a)). -/
def decode (w : Word) : Except DecodeError Instr :=
  if opcode w = 0x0#4 then .ok (.new (w.getLsbD 0))
  else if opcode w = 0x1#4 then .ok (.setDir (bits w 8 8) (directionOfCode (bits w 0 2)))
  else if opcode w = 0x2#4 then .ok (.setSpeed (bits w 8 8) (bits w 0 8))
  else if opcode w = 0x8#4 then .ok .regInit
  else if opcode w = 0x9#4 then
    .ok (.setPair (posOfCode (bits w 0 3)) (w.getLsbD 3) (posOfCode (bits w 4 3)) (w.getLsbD 7))
  else .error (.reservedOpcode (opcode w))

/-- The encoder (R61 to R65); an assembler writes reserved bits as 0 (R66(c)). -/
def encode : Instr → Word
  | .new maxspeed => 0x0#4 ++ 0#15 ++ BitVec.ofBool maxspeed
  | .setDir motor dir => 0x1#4 ++ motor ++ 0#6 ++ dir.code
  | .setSpeed motor speed => 0x2#4 ++ motor ++ speed
  | .regInit => 0x8#4 ++ 0#16
  | .setPair bitA valueA bitB valueB =>
      0x9#4 ++ 0#8 ++ BitVec.ofBool valueB ++ posCode bitB ++ BitVec.ofBool valueA ++ posCode bitA

/-- The command word that a numbered row of spec/opcode_table.json gives: bit 0 of `w` is bit 0 of `CMD`; the bits
above `nbits` are 0; the port has the 20 bits `CMD[19:0]` and no other (R59, R67). -/
def tableWord (nbits w : Nat) : Word := BitVec.ofNat 20 (w % 2 ^ nbits)

/-- What the decoder reads from the bits `w` of an instruction, numbered as spec/opcode_table.json numbers them. -/
def decodeTableWord (nbits w : Nat) : Option Instr :=
  match decode (tableWord nbits w) with
  | .ok i => some i
  | .error _ => none

end Sys2Proof
end

