-- ==== Sys2Proof/Machine/State.lean ====
section
/-! DEFINITION. Everything the spec gives the machine, as plain data (10_state.md, 20_memory.md rules R38 to R41,
30_encoding.md rule R67), the reasons a step can stop, and the state at power-on (R28, R100). -/

namespace Sys2Proof.Machine

/-- `PHASE` (R16): `OFF` until the first `NEW` completes, `READY` from then on. -/
inductive Phase
  | off
  | ready
deriving DecidableEq, Repr

/-- `PIN[p]` (R17): `Z`, not driven, or driven to a level. -/
inductive PinState
  | z
  | driven (level : Level)
deriving DecidableEq, Repr

/-- The states of the four pins (R17). -/
structure Pins where
  latch   : PinState
  data    : PinState
  clock   : PinState
  enableN : PinState
deriving DecidableEq, Repr

/-- An event of the trace (R17). -/
inductive Event
  /-- `CFG(p)`: pin p is made an output -/
  | cfg (p : Pin)
  /-- `CFG(PWMPIN(s))`: the PWM pin of slot s is made an output (R18) -/
  | cfgPwm (s : Slot)
  /-- `W(p, l)`: pin p is driven to level l -/
  | write (p : Pin) (l : Level)
  /-- `PWM(s, d)`: the duty value of slot s is set to d -/
  | pwm (s : Slot) (d : Byte)
deriving DecidableEq, Repr

/-- One line of a command's pseudocode: what the block does between two looks at `BUSY` (R70 to R72, R80 to R84).
A command in progress is the list of its lines still to do (log entry 6). -/
inductive Micro
  /-- `PinConfig(p)` (R18) -/
  | pinConfig (p : Pin)
  /-- `PinConfig(PWMPIN(s))` (R18) -/
  | pwmConfig (s : Slot)
  /-- `REG <- 0x00` (R71) -/
  | clearReg
  /-- `REG[i] <- v` (R72) -/
  | setBit (i : Pos) (v : Bool)
  /-- entering `Transmit()`: `SEQ <- 0` (R15, R70) -/
  | beginFrame
  /-- the pin write of `Transmit()` that `SEQ` numbers (R15, R70) -/
  | frameWrite
  /-- `PinWrite(p, l)` (R19) -/
  | pinWrite (p : Pin) (l : Level)
  /-- `PwmWrite(s, d)` (R22) -/
  | pwmWrite (s : Slot) (d : Byte)
  /-- `PHASE <- READY` (R80) -/
  | setReady
deriving DecidableEq, Repr

/-- The machine stops. Neither reason can be met from power-on: the invariant of Safety.lean rules both out. -/
inductive Fault
  /-- `PinWrite` of a pin in state `Z`, which R19 requires not to be. Raised by `pinWrite`. Safe: the spec gives the
  write no effect and no rule calls it (log entry 5). -/
  | pinNotDriven (p : Pin)
  /-- A pin write of `Transmit()` while `SEQ` is not 0 to 25, a value R15 does not let it take there. Raised by
  `frameWrite`. Safe: the spec numbers no such write (log entry 5). -/
  | sequenceOutsideFrame
deriving DecidableEq, Repr

/-- The command has no meaning: the closed list of R93. A refused command changes no state and emits no event, and
the run has no outcome from there. Each is safe: it errs toward unprovable (R93, D24). -/
inductive Refusal
  /-- An instruction whose meaning is not written; raised by `exec` only, and by no arm of it now. Safe. -/
  | notModelled (mnemonic : String)
  /-- `RF_NOT_CONSTRUCTED`: `PHASE = OFF` and the command is not `NEW`. Raised by command acceptance. Safe. -/
  | notConstructed
  /-- `RF_SAME_BIT`: `SETPAIR` with `bitA = bitB`. Raised by `execSetPair`. Safe. -/
  | sameBit
  /-- `RF_RESERVED_OPCODE`: no command has the word's opcode. Raised by `step`, from the decoder. Safe. -/
  | reservedOpcode
deriving DecidableEq, Repr

/-- The state of the block, its pins, its command port, the PWM boundary and the downstream device. -/
structure State where
  /-- the instance's parameters `VARIANT`, `PAIR_TABLE`, `PWM_TABLE`, `PIN_MAP` (R6, R14, R28): constants, which the
  step takes from here because it takes nothing but the state (log entry 2) -/
  board    : Board
  /-- `REG` (R10) -/
  reg      : Byte
  /-- `PHASE` (R16) -/
  phase    : Phase
  /-- `BUSY` (R16) -/
  busy     : Bool
  /-- `SEQ` (R15); 31 is `IDLE` -/
  seq      : BitVec 5
  /-- `PIN[p]` (R17) -/
  pins     : Pins
  /-- `DUTY[1..4]` (R21), the PWM boundary -/
  duty     : Quad Byte
  /-- `SR` (R24), the downstream shift stage, cell by cell -/
  sr       : Stage
  /-- `OUT` (R24), the downstream output stage -/
  out      : Byte
  /-- the events emitted so far, oldest first (R17, R113) -/
  trace    : List Event
  /-- the command port: the words the issuer has still to have accepted, in order; `CMD_VALID` is that there is one
  and `CMD[19:0]` is the first (R67, R113; log entry 7) -/
  pending  : List Word
  /-- the lines still to do of the command in progress; read only while `BUSY = 1` (R16, R25, R67; log entry 6) -/
  inflight : List Micro
  /-- the model's own field: how many values `draw()` has given so far (log entry 4) -/
  draws    : Nat
deriving DecidableEq, Repr

/-- Power-on (R28, R100): `PHASE = OFF`, `BUSY = 0`, `SEQ = 31`, every pin `Z`; `REG`, `DUTY`, `SR`, `OUT` unspecified;
nothing emitted, nothing presented, nothing in progress. -/
def State.reset : State :=
  { board    := Config.board
    reg      := Config.powerOnReg
    phase    := .off
    busy     := false
    seq      := 31#5
    pins     := { latch := .z, data := .z, clock := .z, enableN := .z }
    duty     := Config.powerOnDuty
    sr       := Config.powerOnShift
    out      := Config.powerOnOut
    trace    := []
    pending  := []
    inflight := []
    draws    := 0 }

end Sys2Proof.Machine
end

