-- ==== Sys2Proof/Machine/Operands.lean ====
section
/-! DEFINITION. The entries of a slot in a table and the byte in a shift stage; operand assembly: direction to bit
values, motor index to slot, slot to bit pair and PWM pin (30_encoding.md sections 1 to 3); and the functions of the
state that the spec reads off it: a slot's direction (R85) and whether a motor turns (R109). -/

namespace Sys2Proof

/-- The entry of a slot. -/
def Quad.get {α : Type} (q : Quad α) : Slot → α
  | .one => q.one
  | .two => q.two
  | .three => q.three
  | .four => q.four

/-- Replace the entry of a slot, the other three kept. -/
def Quad.set {α : Type} (q : Quad α) (s : Slot) (v : α) : Quad α :=
  match s with
  | .one => { q with one := v }
  | .two => { q with two := v }
  | .three => { q with three := v }
  | .four => { q with four := v }

/-- The row of a variant (R14). -/
def Table.row {α : Type} (t : Table α) : Variant → Quad α
  | .A => t.A
  | .B => t.B

/-- The slots 1 to 4 in order. -/
def Slot.all : List Slot := [.one, .two, .three, .four]

/-- The byte a shift stage holds: bit i is `SR[i]`. -/
def Stage.toByte (v : Stage) : Byte :=
  BitVec.ofBool v.q7 ++ BitVec.ofBool v.q6 ++ BitVec.ofBool v.q5 ++ BitVec.ofBool v.q4 ++
    BitVec.ofBool v.q3 ++ BitVec.ofBool v.q2 ++ BitVec.ofBool v.q1 ++ BitVec.ofBool v.q0

/-- The shift stage that holds a byte. -/
def Stage.ofByte (r : Byte) : Stage :=
  { q0 := r.getLsbD 0, q1 := r.getLsbD 1, q2 := r.getLsbD 2, q3 := r.getLsbD 3,
    q4 := r.getLsbD 4, q5 := r.getLsbD 5, q6 := r.getLsbD 6, q7 := r.getLsbD 7 }

/-- `DirBits(d) = (valueA, valueB) = (d[0], d[1])` (R51). -/
def dirBits (d : Direction) : Bool × Bool := (d.code.getLsbD 0, d.code.getLsbD 1)

/-- The inverse of `DirBits`: `d = {valueB, valueA}` (R51). -/
def directionOfBits (valueA valueB : Bool) : Direction :=
  directionOfCode (BitVec.ofBool valueB ++ BitVec.ofBool valueA)

/-- `Slot(m)` (R52): with `k = m mod 4`, slot 4 if `k = 0` and slot `k` otherwise. Total, no range check. -/
def slotOf (m : Byte) : Slot :=
  if m.toNat % 4 = 0 then .four
  else if m.toNat % 4 = 1 then .one
  else if m.toNat % 4 = 2 then .two
  else .three

/-- `Pair(VARIANT, s)` (R53): a table lookup and nothing else. -/
def Board.pair (b : Board) (s : Slot) : BitPair := (b.pairTable.row b.variant).get s

/-- The physical PWM pin of a slot, `PWM_TABLE[VARIANT][s]` (R22, R57); no command reads it. -/
def Board.pwmPin (b : Board) (s : Slot) : Nat := (b.pwmTable.row b.variant).get s

namespace Machine

/-- The direction a byte gives a pair of positions: `{REG[bitB], REG[bitA]}` read through R51 (R85). -/
def directionIn (r : Byte) (p : BitPair) : Direction := directionOfBits (r.getLsbD p.bitA) (r.getLsbD p.bitB)

/-- The state of slot `s` in the document's state machine, a function of `REG` (R8, R85). -/
def State.direction (st : State) (s : Slot) : Direction := directionIn st.reg (st.board.pair s)

/-- The motor of a slot turns only when its code is Forward or Backward and its duty is not 0 (R109). -/
def State.motorMayTurn (st : State) (s : Slot) : Bool :=
  (decide (st.direction s = .forward) || decide (st.direction s = .backward)) && decide (st.duty.get s ≠ 0#8)

end Machine
end Sys2Proof
end

