-- ==== Sys2Proof/Machine/Flags.lean ====
section
/-! DEFINITION. The block's two flags, `PHASE` and `BUSY` (R16), and the two status outputs that show them (R16, R67).
There is no other flag: no operation produces a carry, zero, overflow or result bit (R16). -/

namespace Sys2Proof.Machine

/-- `PHASE <- p`. -/
def State.setPhase (s : State) (p : Phase) : State := { s with phase := p }

/-- `BUSY <- b`. -/
def State.setBusy (s : State) (b : Bool) : State := { s with busy := b }

/-- The status output `READY` (= `PHASE`). -/
def State.readyOutput (s : State) : Level := decide (s.phase = .ready)

/-- The status output `BUSY`. -/
def State.busyOutput (s : State) : Level := s.busy

end Sys2Proof.Machine
end

