-- ==== Sys2Proof/Machine/Ops.lean ====
section
/-! DEFINITION. The shared operations: named updates of the state, the bit operations on `REG` and `SR`, the primitives
`PinConfig`, `PinWrite`, `PwmWrite` (R18, R19, R22), the downstream device (R38 to R41), the numbered pin write of
`Transmit()` (R70), running and resuming a command (R16, R67), and command acceptance with its refusals (R93).

There is no memory operation, because there is no memory (R26), and no operation for taking an exception or returning
from one, because the block has neither (R90, R94). -/

namespace Sys2Proof.Machine

/-- What a step or a meaning answers. -/
abbrev Result := Host.Outcome State Fault Refusal

/-- Go on with the next state; a fault or a refusal ends it. -/
def andThen (r : Result) (f : State → Result) : Result :=
  match r with
  | .next s => f s
  | .fault e => .fault e
  | .refused e => .refused e

/-! ### Named updates -/

/-- The state of a pin. -/
def Pins.get (q : Pins) : Pin → PinState
  | .latch => q.latch
  | .data => q.data
  | .clock => q.clock
  | .enableN => q.enableN

/-- Replace the state of a pin, the other three kept. -/
def Pins.set (q : Pins) (p : Pin) (v : PinState) : Pins :=
  match p with
  | .latch => { q with latch := v }
  | .data => { q with data := v }
  | .clock => { q with clock := v }
  | .enableN => { q with enableN := v }

/-- `REG <- v`. -/
def State.setReg (s : State) (v : Byte) : State := { s with reg := v }

/-- `SEQ <- k` (R15). -/
def State.setSeq (s : State) (k : BitVec 5) : State := { s with seq := k }

/-- `PIN[p] <- v`. -/
def State.setPin (s : State) (p : Pin) (v : PinState) : State := { s with pins := s.pins.set p v }

/-- `DUTY[t] <- d`. -/
def State.setDuty (s : State) (t : Slot) (d : Byte) : State := { s with duty := s.duty.set t d }

/-- `SR <- v`. -/
def State.setSr (s : State) (v : Stage) : State := { s with sr := v }

/-- `OUT <- v`. -/
def State.setOut (s : State) (v : Byte) : State := { s with out := v }

/-- `emit e` (00_scope.md section 5). -/
def State.emit (s : State) (e : Event) : State := { s with trace := s.trace ++ [e] }

/-- The command port after a command has been accepted or another presented. -/
def State.setPending (s : State) (ws : List Word) : State := { s with pending := ws }

/-- The lines of the command in progress that are still to do. -/
def State.setInflight (s : State) (ops : List Micro) : State := { s with inflight := ops }

/-- The state once the value of `draw()` has been taken. -/
def State.drawn (s : State) : State := { s with draws := s.draws + 1 }

/-! ### Bits of `REG` and of the shift stage -/

/-- `REG[i] <- v`: one bit written, the other seven kept (00_scope.md section 5, R72). -/
def writeBit (r : Byte) (i : Pos) (v : Bool) : Byte :=
  (r &&& ~~~(1#8 <<< i.val)) ||| ((BitVec.ofBool v).setWidth 8 <<< i.val)

/-- `{v[6:0], b}` (R39): the bit enters at position 0 and the bit that was in position 7 is lost. -/
def shiftIn (v : Stage) (b : Level) : Stage :=
  { q0 := b, q1 := v.q0, q2 := v.q1, q3 := v.q2, q4 := v.q3, q5 := v.q4, q6 := v.q5, q7 := v.q6 }

/-! ### The downstream device (20_memory.md section 7) -/

/-- On a rising edge of `CLOCK`, `SR <- {SR[6:0], PIN[DATA]}` (R39). Where `DATA` is not driven no source says what
the device takes in, and the bit is drawn (log entry 4); no command writes `CLOCK` before `DATA`. -/
def shiftStage (s : State) : State :=
  match s.pins.data with
  | .driven b => s.setSr (shiftIn s.sr b)
  | .z => (s.setSr (shiftIn s.sr (Config.draw s.draws))).drawn

/-- A write of level `l` to a pin that was in state `old` is a rising edge (R19). -/
def risingEdge (old : PinState) (l : Level) : Bool := l && decide (old = .driven false)

/-- `Env(W(p, l))` (R38), where `old` is the state of pin `p` before the write: a rising edge of `CLOCK` shifts (R39), a
rising edge of `LATCH` copies `SR` to `OUT` (R40), and nothing else has an effect. -/
def env (old : PinState) (p : Pin) (l : Level) (s : State) : State :=
  match p with
  | .clock => if risingEdge old l then shiftStage s else s
  | .latch => if risingEdge old l then s.setOut s.sr.toByte else s
  | .data => s
  | .enableN => s

/-- The downstream parallel outputs `Q[7:0]`: `OUT` while `PIN[ENABLE_N] = 0`, not driven while it is 1 or `Z` (R41). -/
def State.outputs (s : State) : Option Byte :=
  if s.pins.enableN = .driven false then some s.out else none

/-! ### Primitives -/

/-- The level a pin takes when it is first made an output: 0 for `LATCH`, `CLOCK` and `DATA`, drawn for `ENABLE_N`
(R18, D9; log entry 4). -/
def configLevel (p : Pin) (s : State) : State :=
  match p with
  | .latch => s.setPin .latch (.driven false)
  | .data => s.setPin .data (.driven false)
  | .clock => s.setPin .clock (.driven false)
  | .enableN => (s.setPin .enableN (.driven (Config.draw s.draws))).drawn

/-- `PinConfig(p)` (R18): a pin that is already driven keeps its level. -/
def pinConfig (p : Pin) (s : State) : State :=
  match s.pins.get p with
  | .z => configLevel p (s.emit (.cfg p))
  | .driven _ => s.emit (.cfg p)

/-- `PinConfig(PWMPIN(t))` (R18): only the event. -/
def pwmConfig (t : Slot) (s : State) : State := s.emit (.cfgPwm t)

/-- `PinWrite(p, l)` (R19): the event, the level, and then the device's reaction (R38). -/
def pinWrite (p : Pin) (l : Level) (s : State) : Result :=
  match s.pins.get p with
  | .z => .fault (.pinNotDriven p)
  | .driven old => .next (env (.driven old) p l ((s.emit (.write p l)).setPin p (.driven l)))

/-- `PwmWrite(t, d)` (R22). -/
def pwmWrite (t : Slot) (d : Byte) (s : State) : State := (s.emit (.pwm t d)).setDuty t d

/-! ### Transmit -/

/-- The pin write numbered `k` of `Transmit()` (R70): in cell `j` the writes 1 + 3j, 2 + 3j, 3 + 3j are
`DATA = REG[7 - j]`, `CLOCK = 1`, `CLOCK = 0`. There is none from 26 on. -/
def frameWriteAt (r : Byte) (k : Nat) : Option (Pin × Level) :=
  if k = 0 then some (.latch, false)
  else if k < 25 then
    if (k - 1) % 3 = 0 then some (.data, r.getLsbD (7 - (k - 1) / 3))
    else if (k - 1) % 3 = 1 then some (.clock, true)
    else some (.clock, false)
  else if k = 25 then some (.latch, true)
  else none

/-- `SEQ` after the write it numbers: the next number, and 31 (`IDLE`) after write 25 (R15). -/
def nextSeq (k : BitVec 5) : BitVec 5 := if k = 25#5 then 31#5 else k + 1#5

/-- The write that `SEQ` numbers, then `SEQ` moved on (R15, R70). -/
def frameWrite (s : State) : Result :=
  match frameWriteAt s.reg s.seq.toNat with
  | none => .fault .sequenceOutsideFrame
  | some (p, l) => andThen (pinWrite p l s) fun t => .next (t.setSeq (nextSeq s.seq))

/-- The lines of `Transmit()` (R70): `SEQ <- 0`, then the 26 writes. -/
def transmitLines : List Micro := .beginFrame :: List.replicate 26 .frameWrite

/-! ### Running a command -/

/-- The effect of one line. -/
def perform (op : Micro) (s : State) : Result :=
  match op with
  | .pinConfig p => .next (pinConfig p s)
  | .pwmConfig t => .next (pwmConfig t s)
  | .clearReg => .next (s.setReg 0x00#8)
  | .setBit i v => .next (s.setReg (writeBit s.reg i v))
  | .beginFrame => .next (s.setSeq 0#5)
  | .frameWrite => frameWrite s
  | .pinWrite p l => pinWrite p l s
  | .pwmWrite t d => .next (pwmWrite t d s)
  | .setReady => .next (s.setPhase .ready)

/-- The lines of a command in order, to the end; with none left the command is complete and `BUSY <- 0` (R16, R94). -/
def runLines : List Micro → State → Result
  | [], s => .next ((s.setInflight []).setBusy false)
  | op :: rest, s => andThen (perform op (s.setInflight rest)) (runLines rest)

/-- One line of the command in progress: what happens between two events of its trace (R17). -/
def advance (s : State) : Result :=
  match s.inflight with
  | [] => .next (s.setBusy false)
  | op :: rest => perform op (s.setInflight rest)

/-- `n` lines of the command in progress. -/
def advanceBy : Nat → State → Result
  | 0, s => .next s
  | n + 1, s => andThen (advance s) (advanceBy n)

/-- A command in progress is completed before anything else happens: what is presented while `BUSY = 1` has no effect
until `BUSY = 0` (R67, U16). An idle block stays as it is. -/
def settle (s : State) : Result := if s.busy then runLines s.inflight s else .next s

/-- Acceptance of a command with the given lines: `BUSY <- 1` (R67). -/
def accept (lines : List Micro) (s : State) : State := (s.setInflight lines).setBusy true

/-- A command presented to the block (R67): it waits until the block is idle, then it is refused with a reason and
without an effect (R93), or it is accepted and runs to completion (R94). -/
def issue (refusal : State → Option Refusal) (lines : State → List Micro) (s : State) : Result :=
  andThen (settle s) fun idle =>
    match refusal idle with
    | some reason => .refused reason
    | none => settle (accept (lines idle) idle)

/-- No reason to refuse: `NEW` is legal in both phases (R80). -/
def neverRefused (_ : State) : Option Refusal := none

/-- `RF_NOT_CONSTRUCTED` while `PHASE = OFF` (R93). -/
def needsReady (s : State) : Option Refusal :=
  match s.phase with
  | .off => some .notConstructed
  | .ready => none

end Sys2Proof.Machine
end

