-- ==== Sys2Proof/Machine/Register.lean ====
section
/-! DEFINITION. The register-level commands, `REGINIT` (R71) and `SETPAIR` (R72). -/

namespace Sys2Proof.Machine

/-- The body of `REGINIT` (R71), which `NEW` runs too (R80). -/
def clearLines : List Micro := .clearReg :: transmitLines

/-- The body of `SETPAIR` (R72), which `SETDIR` runs too (R82). -/
def pairLines (bitA : Pos) (valueA : Bool) (bitB : Pos) (valueB : Bool) : List Micro :=
  .setBit bitA valueA :: .setBit bitB valueB :: transmitLines

/-- `REGINIT` (R71). -/
def execRegInit (s : State) : Host.Outcome State Fault Refusal :=
  issue needsReady (fun _ => clearLines) s

/-- The reasons to refuse a `SETPAIR`; the phase check is made first (R66(b), R92, R93). -/
def pairRefusal (bitA bitB : Pos) (s : State) : Option Refusal :=
  match needsReady s with
  | some reason => some reason
  | none => if bitA = bitB then some .sameBit else none

/-- `SETPAIR bitA, valueA, bitB, valueB` (R72). -/
def execSetPair (bitA : Pos) (valueA : Bool) (bitB : Pos) (valueB : Bool) (s : State) :
    Host.Outcome State Fault Refusal :=
  issue (pairRefusal bitA bitB) (fun _ => pairLines bitA valueA bitB valueB) s

end Sys2Proof.Machine
end

