-- ==== Sys2Proof/Machine/Controller.lean ====
section
/-! DEFINITION. The controller-level commands, `NEW` (R80), `SETDIR` (R82) and `SETSPEED` (R84). -/

namespace Sys2Proof.Machine

/-- The configuration of every pin, in the order of R80. -/
def configLines : List Micro :=
  [.pinConfig .latch, .pinConfig .clock, .pinConfig .data, .pinConfig .enableN,
   .pwmConfig .one, .pwmConfig .two, .pwmConfig .three, .pwmConfig .four]

/-- Every PWM output driven to maximum, slots 1 to 4 in order (R80). -/
def maxSpeedLines : List Micro :=
  [.pwmWrite .one 255#8, .pwmWrite .two 255#8, .pwmWrite .three 255#8, .pwmWrite .four 255#8]

/-- The lines of `NEW maxspeed` (R80). -/
def newLines (maxspeed : Bool) : List Micro :=
  configLines ++ clearLines ++ [.pinWrite .enableN false] ++ (if maxspeed then maxSpeedLines else []) ++ [.setReady]

/-- `NEW maxspeed` (R80). -/
def execNew (maxspeed : Bool) (s : State) : Host.Outcome State Fault Refusal :=
  issue neverRefused (fun _ => newLines maxspeed) s

/-- The lines of `SETDIR motor, dir` on a board (R82). -/
def dirLines (b : Board) (motor : Byte) (dir : Direction) : List Micro :=
  pairLines (b.pair (slotOf motor)).bitA (dirBits dir).1 (b.pair (slotOf motor)).bitB (dirBits dir).2

/-- `SETDIR motor, dir` (R82). -/
def execSetDir (motor : Byte) (dir : Direction) (s : State) : Host.Outcome State Fault Refusal :=
  issue needsReady (fun idle => dirLines idle.board motor dir) s

/-- `SETSPEED motor, speed` (R84). -/
def execSetSpeed (motor : Byte) (speed : Byte) (s : State) : Host.Outcome State Fault Refusal :=
  issue needsReady (fun _ => [.pwmWrite (slotOf motor) speed]) s

end Sys2Proof.Machine
end

