-- ==== Sys2Proof/Machine/Dispatch.lean ====
section
/-! DEFINITION. The meaning of each command: one arm per row of spec/opcode_table.json. -/

namespace Sys2Proof.Machine

def exec (i : Instr) (s : State) : Host.Outcome State Fault Refusal :=
  match i with
  | .new maxspeed => Sys2Proof.Machine.execNew maxspeed s
  | .setDir motor dir => Sys2Proof.Machine.execSetDir motor dir s
  | .setSpeed motor speed => Sys2Proof.Machine.execSetSpeed motor speed s
  | .regInit => Sys2Proof.Machine.execRegInit s
  | .setPair bitA valueA bitB valueB => Sys2Proof.Machine.execSetPair bitA valueA bitB valueB s

end Sys2Proof.Machine
end

