-- ==== Sys2Proof/Machine/Step.lean ====
section
/-! DEFINITION. One step: the block takes the command word the issuer presents and runs it (R67, R113). The block
fetches nothing (R47): the words stand in the state's `pending`, the issuer's list of commands, and a step takes the
first. -/

namespace Sys2Proof.Machine

/-- With no command presented the block waits (R29, R100), having completed what it was doing. A presented word with a
reserved opcode is refused (R66(a)); any other is taken from the port and its command runs. -/
def step (s : State) : Host.Outcome State Fault Refusal :=
  match s.pending with
  | [] => settle s
  | w :: rest =>
    match decode w with
    | .ok i => exec i (s.setPending rest)
    | .error _ => andThen (settle s) fun _ => .refused .reservedOpcode

/-- The state with the command word of a numbered opcode row presented first on the command port. -/
def State.withFetchWord (s : State) (nbits w : Nat) : State := s.setPending (tableWord nbits w :: s.pending)

end Sys2Proof.Machine
end

