-- ==== Sys2Proof/Safety.lean ====
section
/-! DEFINITION. The terms in which claims are made: the trace of a transmission and of each command (R70, R81), the
state after a transmission (R74), the invariant of the block between commands (R13, R15, R16, R20, R42, R74), histories
of commands (R13, R113) and what a claim hides of a state (R12, R21). -/

namespace Sys2Proof

/-! ### Commands as syntax -/

/-- The bits of a command word that are the opcode or an operand of the command; the others are reserved (R61 to R65). -/
def operandMask : Instr → Word
  | .new _ => 0xF0001#20
  | .setDir _ _ => 0xFFF03#20
  | .setSpeed _ _ => 0xFFFFF#20
  | .regInit => 0xF0000#20
  | .setPair _ _ _ _ => 0xF00FF#20

/-- The command is `NEW`, `REGINIT` or `SETDIR`: the histories R13 speaks of. -/
def Instr.keepsSlots : Instr → Bool
  | .new _ => true
  | .setDir _ _ => true
  | .setSpeed _ _ => false
  | .regInit => true
  | .setPair _ _ _ _ => false

/-- The command is a `NEW`. -/
def Instr.isNew : Instr → Bool
  | .new _ => true
  | .setDir _ _ => false
  | .setSpeed _ _ => false
  | .regInit => false
  | .setPair _ _ _ _ => false

namespace Machine

/-! ### Traces -/

/-- The bit cell of one bit: `DATA`, then a clock pulse (R33). -/
def cellEvents (b : Level) : List Event := [.write .data b, .write .clock true, .write .clock false]

/-- `frame(F)`: the levels of `DATA` in time order; cell j carries `F[7 - j]` (R31, R58). -/
def frameLevels (r : Byte) : List Level :=
  [r.getLsbD 7, r.getLsbD 6, r.getLsbD 5, r.getLsbD 4, r.getLsbD 3, r.getLsbD 2, r.getLsbD 1, r.getLsbD 0]

/-- `T(F)`: the 26 writes of `Transmit()` with `REG = F` (R33, R70). -/
def frameEvents (r : Byte) : List Event :=
  [.write .latch false] ++ (frameLevels r).flatMap cellEvents ++ [.write .latch true]

/-- The 8 events that configure the pins (R81). -/
def configEvents : List Event :=
  [.cfg .latch, .cfg .clock, .cfg .data, .cfg .enableN] ++ Slot.all.map .cfgPwm

/-- The trace of a command: what it adds to the events emitted, on a board and from a byte `r` in `REG`
(R71, R72, R81, R82, R84). -/
def commandEvents (b : Board) (r : Byte) : Instr → List Event
  | .new maxspeed =>
      configEvents ++ frameEvents 0#8 ++ [.write .enableN false] ++
        (if maxspeed then Slot.all.map fun t => .pwm t 255#8 else [])
  | .setDir motor dir =>
      frameEvents (writeBit (writeBit r (b.pair (slotOf motor)).bitA (dirBits dir).1)
        (b.pair (slotOf motor)).bitB (dirBits dir).2)
  | .setSpeed motor speed => [.pwm (slotOf motor) speed]
  | .regInit => frameEvents 0#8
  | .setPair bitA valueA bitB valueB => frameEvents (writeBit (writeBit r bitA valueA) bitB valueB)

/-- The level of a `DATA` write; nothing for any other event. -/
def Event.dataLevel : Event → Option Level
  | .write .data l => some l
  | .write .latch _ => none
  | .write .clock _ => none
  | .write .enableN _ => none
  | .cfg _ => none
  | .cfgPwm _ => none
  | .pwm _ _ => none

/-- The event is a write to the pin (R19). -/
def Event.writesPin (p : Pin) : Event → Bool
  | .write q _ => decide (q = p)
  | .cfg _ => false
  | .cfgPwm _ => false
  | .pwm _ _ => false

/-! ### Transmission -/

/-- The precondition of `Transmit()`: the four pins are configured and `PIN[CLOCK] = 0` (R70). -/
def State.frameReady (s : State) : Prop :=
  s.pins.latch ≠ .z ∧ s.pins.data ≠ .z ∧ s.pins.enableN ≠ .z ∧ s.pins.clock = .driven false

/-- `Transmit()` by itself, as a command in progress would run it (R70). -/
def transmit (s : State) : Result := runLines transmitLines s

/-- The idle state after a transmission of byte `r`: R74 and R42, everything else as in `s`. -/
def State.afterFrame (s : State) (r : Byte) : State :=
  { s with
    reg := r
    seq := 31#5
    pins := { s.pins with latch := .driven true, data := .driven (r.getLsbD 0), clock := .driven false }
    sr := Stage.ofByte r
    out := r
    trace := s.trace ++ frameEvents r
    busy := false
    inflight := [] }

/-- `REG` after `REG[bitA] <- valueA; REG[bitB] <- valueB` by the mask formula of R72, all on 8 bits. -/
def pairByMask (r : Byte) (bitA : Pos) (valueA : Bool) (bitB : Pos) (valueB : Bool) : Byte :=
  (r &&& ~~~((1#8 <<< bitA.val) ||| (1#8 <<< bitB.val))) |||
    ((if valueA then 1#8 else 0#8) <<< bitA.val) ||| ((if valueB then 1#8 else 0#8) <<< bitB.val)

/-! ### The invariant between commands -/

/-- What holds whenever no command is in progress, from power-on on (R15, R16, R17, R20, R42, R74, R100). -/
structure State.Inv (s : State) : Prop where
  /-- `BUSY = 0` between commands (R16) -/
  idle : s.busy = false
  /-- nothing in progress once `BUSY = 0` (R25) -/
  nothingInFlight : s.inflight = []
  /-- `SEQ` is 31 outside `Transmit()` (R15) -/
  seqIdle : s.seq = 31#5
  /-- no pin is driven before the first `NEW` (R28) -/
  off : s.phase = .off → s.pins = { latch := .z, data := .z, clock := .z, enableN := .z }
  /-- the pins after a frame (R74) with the enable asserted (R20) -/
  readyPins : s.phase = .ready →
    s.pins = { latch := .driven true, data := .driven (s.reg.getLsbD 0), clock := .driven false,
               enableN := .driven false }
  /-- the mirror: `SR = OUT = REG` (R42) -/
  mirror : s.phase = .ready → s.sr = Stage.ofByte s.reg ∧ s.out = s.reg

/-! ### Histories -/

/-- Commands issued one after another (R113). -/
def runAll : List Instr → State → Result
  | [], s => .next s
  | i :: rest, s => andThen (exec i s) (runAll rest)

/-- The direction last commanded for slot `t` by a history, oldest command first, where `d` is the one before it: that of
the last `SETDIR` whose motor index resolves to `t` since the last `REGINIT` or `NEW`, Release if there was none (R13). -/
def lastCommanded (t : Slot) : List Instr → Direction → Direction
  | [], d => d
  | .new _ :: rest, _ => lastCommanded t rest .release
  | .regInit :: rest, _ => lastCommanded t rest .release
  | .setDir motor dir :: rest, d => lastCommanded t rest (if slotOf motor = t then dir else d)
  | .setSpeed _ _ :: rest, d => lastCommanded t rest d
  | .setPair _ _ _ _ :: rest, d => lastCommanded t rest d

/-- The value last written to bit `k` of `REG` by a history on a board, where `v` is the one before it: by the clear of
`NEW` and `REGINIT`, or by the bit-pair write of `SETDIR` and `SETPAIR` (R11, R13). -/
def lastWritten (b : Board) (k : Pos) : List Instr → Bool → Bool
  | [], v => v
  | .new _ :: rest, _ => lastWritten b k rest false
  | .regInit :: rest, _ => lastWritten b k rest false
  | .setDir motor dir :: rest, v =>
      lastWritten b k rest
        (if k = (b.pair (slotOf motor)).bitA then dir.code.getLsbD 0
         else if k = (b.pair (slotOf motor)).bitB then dir.code.getLsbD 1 else v)
  | .setSpeed _ _ :: rest, v => lastWritten b k rest v
  | .setPair bitA valueA bitB valueB :: rest, v =>
      lastWritten b k rest (if k = bitA then valueA else if k = bitB then valueB else v)

/-! ### What a claim hides of a state -/

/-- The state with the downstream device hidden (R12, R24). -/
def State.hideDevice (s : State) : State := { s with sr := Stage.ofByte 0#8, out := 0#8 }

/-- The state with the PWM boundary hidden (R21). -/
def State.hideDuty (s : State) : State := { s with duty := { one := 0#8, two := 0#8, three := 0#8, four := 0#8 } }

/-- A result seen through a view of its state. -/
def view (f : State → State) (r : Result) : Result := andThen r fun s => .next (f s)

end Machine
end Sys2Proof
end

