-- ==== Sys2Proof/Certificates/Slice0/Obligations.lean ====
section
/-! DEFINITION. The statements for the provers, each a numbered rule of spec/ or a whole-machine consequence of several.
Where a rule carries the spec's mark "decision" (92_eei_decisions.md), the docstring names the decision. -/

open Sys2Proof Sys2Proof.Machine

/-! ## Encoding -/

/-- Every command, with every operand at every value, is read back from its own word (R59 to R65; the word is the
spec's decision D1). -/
def Obligations.DecodeOfEncodeIsTheCommand : Prop :=
  ∀ i : Instr, decode (encode i) = .ok i

/-- The command a word decodes to has every operand bit of the word and no other: its own word is the given one with the
reserved bits written as 0, and any word that differs in reserved bits only decodes to the same command (R61 to R65,
R66(c), decision D2). -/
def Obligations.DecodedCommandHasEveryOperandBit : Prop :=
  ∀ (w : Word) (i : Instr), decode w = .ok i →
    encode i = w &&& operandMask i ∧
    ∀ w' : Word, w' &&& operandMask i = w &&& operandMask i → decode w' = .ok i

/-- Exactly the opcodes 0x3 to 0x7 and 0xA to 0xF are no command, and such a word presented to an idle block is refused
with `RF_RESERVED_OPCODE` (R60, R66(a), R93, decision D3). -/
def Obligations.ExactlyTheReservedOpcodesAreRefused : Prop :=
  ∀ w : Word,
    ((∃ e, decode w = .error e) ↔
      (0x3 ≤ w.toNat / 2 ^ 16 ∧ w.toNat / 2 ^ 16 ≤ 0x7) ∨ (0xA ≤ w.toNat / 2 ^ 16 ∧ w.toNat / 2 ^ 16 ≤ 0xF)) ∧
    ∀ (s : State) (rest : List Word), s.busy = false → s.pending = w :: rest →
      (step s = .refused .reservedOpcode ↔ ∃ e, decode w = .error e)

/-- Words the spec writes out, with the commands it gives them (R61 to R65; 95_test_vectors.md section 2.1). -/
def Obligations.SpecCommandWordsDecode : Prop :=
  decode 0x00000#20 = .ok (.new false) ∧ decode 0x00001#20 = .ok (.new true) ∧
  decode 0x0FFFF#20 = .ok (.new true) ∧ decode 0x10101#20 = .ok (.setDir 1#8 .forward) ∧
  decode 0x10202#20 = .ok (.setDir 2#8 .backward) ∧ decode 0x1FF00#20 = .ok (.setDir 255#8 .release) ∧
  decode 0x101FD#20 = .ok (.setDir 1#8 .forward) ∧ decode 0x20180#20 = .ok (.setSpeed 1#8 128#8) ∧
  decode 0x80000#20 = .ok .regInit ∧ decode 0x9003A#20 = .ok (.setPair 2 true 3 false) ∧
  decode 0x90027#20 = .ok (.setPair 7 false 2 false) ∧ decode 0x30000#20 = .error (.reservedOpcode 0x3#4)

/-! ## Operand assembly and the tables -/

/-- `DirBits(d) = (d[0], d[1])`, its inverse is `d = {valueB, valueA}`, and the two are inverse bijections between the
four directions and the four pairs of bits (R51). -/
def Obligations.DirectionBitsAreABijection : Prop :=
  (∀ d : Direction, dirBits d = (d.code.getLsbD 0, d.code.getLsbD 1)) ∧
  (∀ valueA valueB : Bool, (directionOfBits valueA valueB).code = BitVec.ofBool valueB ++ BitVec.ofBool valueA) ∧
  (∀ d : Direction, directionOfBits (dirBits d).1 (dirBits d).2 = d) ∧
  (∀ valueA valueB : Bool, dirBits (directionOfBits valueA valueB) = (valueA, valueB))

/-- `Slot(m)` is slot `m mod 4`, slot 4 where that is 0, for each of the 256 motor indices, so it has period 4 and
fixes 1 to 4 (R52; the operand's type is decision D4, the aliasing kept is decision D5). -/
def Obligations.SlotIsTheMotorIndexModuloFour : Prop :=
  (∀ m : Byte, (slotOf m = .four ↔ m.toNat % 4 = 0) ∧ (slotOf m = .one ↔ m.toNat % 4 = 1) ∧
    (slotOf m = .two ↔ m.toNat % 4 = 2) ∧ (slotOf m = .three ↔ m.toNat % 4 = 3)) ∧
  (∀ m : Byte, slotOf (m + 4#8) = slotOf m) ∧
  slotOf 1#8 = .one ∧ slotOf 2#8 = .two ∧ slotOf 3#8 = .three ∧ slotOf 4#8 = .four ∧
  slotOf 0#8 = .four ∧ slotOf 5#8 = .one ∧ slotOf 255#8 = .three

/-- On every board and for each variant, a slot's two positions differ and two slots have no position in common, every
position being 0 to 7 (R54). -/
def Obligations.SlotsHaveDisjointPairs : Prop :=
  ∀ (b : Board) (v : Variant) (s t : Slot),
    ((b.pairTable.row v).get s).bitA ≠ ((b.pairTable.row v).get s).bitB ∧
    ((b.pairTable.row v).get s).bitA.val ≤ 7 ∧ ((b.pairTable.row v).get s).bitB.val ≤ 7 ∧
    (s ≠ t →
      ((b.pairTable.row v).get s).bitA ≠ ((b.pairTable.row v).get t).bitA ∧
      ((b.pairTable.row v).get s).bitA ≠ ((b.pairTable.row v).get t).bitB ∧
      ((b.pairTable.row v).get s).bitB ≠ ((b.pairTable.row v).get t).bitA ∧
      ((b.pairTable.row v).get s).bitB ≠ ((b.pairTable.row v).get t).bitB)

/-- Every position 0 to 7 is owned by exactly one slot, as its A bit or its B bit and not both (R37, derived there). -/
def Obligations.EveryPositionHasOneOwner : Prop :=
  ∀ (b : Board) (k : Pos), ∃ s : Slot,
    ((b.pair s).bitA = k ∨ (b.pair s).bitB = k) ∧ ¬((b.pair s).bitA = k ∧ (b.pair s).bitB = k) ∧
    ∀ t : Slot, ((b.pair t).bitA = k ∨ (b.pair t).bitB = k) → t = s

/-- Two instances with one table and the two variants: slots 1 and 2 have the same pairs, slots 3 and 4 exchange theirs,
and slot 3 has no position in common with itself under the other variant, nor has slot 4 (R55, R56, R82(d); the exact
exchange is decision D7). -/
def Obligations.VariantsExchangeSlots3And4 : Prop :=
  ∀ a b : Board, a.pairTable = b.pairTable → a.variant = .A → b.variant = .B →
    a.pair .one = b.pair .one ∧ a.pair .two = b.pair .two ∧
    a.pair .three = b.pair .four ∧ a.pair .four = b.pair .three ∧
    ∀ s : Slot, s = .three ∨ s = .four →
      (a.pair s).bitA ≠ (b.pair s).bitA ∧ (a.pair s).bitA ≠ (b.pair s).bitB ∧
      (a.pair s).bitB ≠ (b.pair s).bitA ∧ (a.pair s).bitB ≠ (b.pair s).bitB

/-! ## The pins and the downstream device -/

/-- `PinConfig(p)` emits `CFG(p)`; a driven pin keeps its level; an undriven `LATCH`, `CLOCK` or `DATA` becomes 0 and an
undriven `ENABLE_N` some level, of which nothing is said; nothing else changes but the count of drawn values. On a PWM
pin there is the event alone (R18; the levels are decision D9). -/
def Obligations.PinConfigDrivesOnlyAnUndrivenPin : Prop :=
  ∀ (s : State) (p : Pin) (t : Slot),
    (s.pins.get p ≠ .z → perform (.pinConfig p) s = .next { s with trace := s.trace ++ [.cfg p] }) ∧
    (s.pins.get p = .z → p ≠ .enableN → perform (.pinConfig p) s =
      .next { s with trace := s.trace ++ [.cfg p], pins := s.pins.set p (.driven false) }) ∧
    (s.pins.get p = .z → p = .enableN → ∃ (l : Level) (n : Nat), perform (.pinConfig p) s =
      .next { s with trace := s.trace ++ [.cfg p], pins := s.pins.set p (.driven l), draws := n }) ∧
    perform (.pwmConfig t) s = .next { s with trace := s.trace ++ [.cfgPwm t] }

/-- `PinWrite(p, l)` on a driven pin emits `W(p, l)`, also when the level does not change, and drives the pin; the device
shifts `PIN[DATA]` in on a rising edge of `CLOCK`, takes `SR` to `OUT` on a rising edge of `LATCH`, and does nothing
otherwise (R19, R38, R39, R40; decisions D15 and D21). The premise on `DATA` holds at every write of `CLOCK` that a
command makes; where `DATA` is not driven the bit is free (log entry 4). -/
def Obligations.PinWriteDrivesThePinAndTheDeviceReacts : Prop :=
  ∀ (s : State) (p : Pin) (l old d : Level), s.pins.get p = .driven old → s.pins.data = .driven d →
    perform (.pinWrite p l) s = .next { s with
      trace := s.trace ++ [.write p l]
      pins := s.pins.set p (.driven l)
      sr := if p = .clock ∧ old = false ∧ l = true then
              { q0 := d, q1 := s.sr.q0, q2 := s.sr.q1, q3 := s.sr.q2, q4 := s.sr.q3, q5 := s.sr.q4, q6 := s.sr.q5,
                q7 := s.sr.q6 }
            else s.sr
      out := if p = .latch ∧ old = false ∧ l = true then s.sr.toByte else s.out }

/-! ## Transmit -/

/-- A transmission sends the bits of `REG` most significant first: the levels written to `DATA` are `REG[7]` down to
`REG[0]`, from every state in which a transmission may start (R31). -/
def Obligations.TransmissionIsMostSignificantBitFirst : Prop :=
  ∀ s : State, s.frameReady → ∃ (t : State) (events : List Event),
    transmit s = .next t ∧ t.trace = s.trace ++ events ∧
    events.filterMap Event.dataLevel = (List.range 8).map fun j => s.reg.getLsbD (7 - j)

/-- After a transmission `SR = OUT = REG`, the pins and `SEQ` are as in R74, exactly the 26 writes of R70 have been
emitted, `REG` and everything else is as before, and a next transmission may start (R42, R70, R74; derived there, and
resting on decisions D8 and D15). -/
def Obligations.TransmissionMakesTheDeviceMirrorTheRegister : Prop :=
  ∀ s : State, s.frameReady →
    transmit s = .next (s.afterFrame s.reg) ∧ (s.afterFrame s.reg).frameReady ∧
    (s.afterFrame s.reg).sr.toByte = s.reg ∧ (frameEvents s.reg).length = 26

/-- A store is atomic as seen from the parallel outputs: they hold the previous byte through the opening of the frame
and all 8 bit cells and take the new byte as a whole when the latch is raised, while the shift stage holds its old
contents moved up with the bits sent so far below them. Derived from R34, R33, R39 to R41 and R43: R34 says only that the
shift stage passes through intermediate values, its contents after each cell are R39 under the spec's decision D15, the
writes of a cell are decision D8, and counting the frame as 27 lines (26 before the latch is raised, 2 + 3c after c
cells) is the model's DESIGN CHOICE, log entry 6. -/
def Obligations.OutputsTakeTheNewByteAsAWhole : Prop :=
  ∀ s : State, s.frameReady →
    (∀ n : Nat, n ≤ 26 → ∃ u : State, advanceBy n (accept transmitLines s) = .next u ∧
      u.out = s.out ∧ u.outputs = s.outputs) ∧
    (∀ c : Nat, c ≤ 8 → ∃ u : State, advanceBy (2 + 3 * c) (accept transmitLines s) = .next u ∧
      u.sr.toByte = s.sr.toByte <<< c ||| s.reg >>> (8 - c)) ∧
    ∃ t : State, advanceBy 27 (accept transmitLines s) = .next t ∧ t.out = s.reg ∧
      t.outputs = if s.pins.enableN = .driven false then some s.reg else none

/-- During a transmission `SEQ` takes the values 0 to 25 in order: the write numbered `n` is emitted while `SEQ = n`, after
which `SEQ` is `n + 1`, and 31 after write 25 (R15; `SEQ` is decision D14). -/
def Obligations.SequenceCounterNumbersEveryWrite : Prop :=
  ∀ (s : State) (n : Nat), s.frameReady → n < 26 → ∃ (u v : State) (e : Event),
    advanceBy (n + 1) (accept transmitLines s) = .next u ∧ u.seq.toNat = n ∧
    (frameEvents s.reg)[n]? = some e ∧ advance u = .next v ∧ v.trace = u.trace ++ [e] ∧
    v.seq.toNat = if n = 25 then 31 else n + 1

/-- Transmission is idempotent: a second one with the same `REG` emits the same 26 writes and leaves the same pins and
the same device, with `SR = OUT = REG` after each; the first frame after a first `NEW` differs in finding `LATCH` at 0,
where later frames find it at 1 (R35; the writes in a cell are decision D8, the device decision D15). -/
def Obligations.TransmissionIsIdempotent : Prop :=
  (∀ s : State, s.frameReady → ∃ (t u : State) (events : List Event),
    transmit s = .next t ∧ transmit t = .next u ∧ events.length = 26 ∧
    t.trace = s.trace ++ events ∧ u.trace = t.trace ++ events ∧
    u.pins = t.pins ∧ u.sr = t.sr ∧ u.out = t.out ∧
    t.sr.toByte = s.reg ∧ t.out = s.reg ∧ u.reg = s.reg ∧ t.pins.latch = .driven true) ∧
  ∀ (s : State) (maxspeed : Bool), s.pins.latch = .z → ∃ u : State,
    advanceBy 9 (accept (newLines maxspeed) s) = .next u ∧ u.inflight.head? = some .beginFrame ∧
    u.pins.latch = .driven false

/-! ## The commands -/

/-- `REGINIT` (R71): in `READY` it clears `REG` and sends a frame of eight 0 bits, after which the state is as in R74 and
`DUTY`, `PHASE`, `PIN[ENABLE_N]` and all else are as before; in `OFF` it is refused (decisions D18, D19). -/
def Obligations.RegInitClearsAndTransmits : Prop :=
  ∀ s : State, s.busy = false →
    (s.phase = .ready → s.frameReady → exec .regInit s = .next (s.afterFrame 0#8)) ∧
    (s.phase = .off → exec .regInit s = .refused .notConstructed)

/-- `SETPAIR` (R72): in `READY`, with `bitA ≠ bitB`, `REG` becomes the byte of the rule's mask formula, which changes the
two named bits and no other, and the whole byte is transmitted, also when `REG` did not change; `DUTY`, `PHASE`,
`PIN[ENABLE_N]` and all else are as before. In `OFF` it is refused, and in `READY` it is refused when `bitA = bitB`,
whatever the two values are. (The order of the writes inside a bit cell of the frame is decision D8 of rule R70.) -/
def Obligations.SetPairWritesTwoBitsAndTransmits : Prop :=
  ∀ (s : State) (bitA : Pos) (valueA : Bool) (bitB : Pos) (valueB : Bool), s.busy = false →
    (s.phase = .ready → s.frameReady → bitA ≠ bitB →
      exec (.setPair bitA valueA bitB valueB) s = .next (s.afterFrame (pairByMask s.reg bitA valueA bitB valueB)) ∧
      ∀ k : Pos, (pairByMask s.reg bitA valueA bitB valueB).getLsbD k =
        if k = bitA then valueA else if k = bitB then valueB else s.reg.getLsbD k) ∧
    (s.phase = .off → exec (.setPair bitA valueA bitB valueB) s = .refused .notConstructed) ∧
    (s.phase = .ready → bitA = bitB → exec (.setPair bitA valueA bitB valueB) s = .refused .sameBit)

/-- `SETDIR` (R82): in `READY` the two bits of the slot that the motor index resolves to take the direction's code, the six
bits of the other slots are kept, and the whole byte is transmitted, whatever the index and whatever the direction was;
`DUTY`, `PHASE`, `PIN[ENABLE_N]` and all else are as before. It is never refused for `RF_SAME_BIT`; in `OFF` it is
refused with `RF_NOT_CONSTRUCTED`. Under the two variants the same command writes the same positions for slots 1 and 2
and different ones for slots 3 and 4. (The order of the writes inside a bit cell is decision D8 of rule R70.) -/
def Obligations.SetDirWritesTheSlotsCodeAndTransmits : Prop :=
  (∀ (s : State) (motor : Byte) (dir : Direction), s.busy = false →
    (s.phase = .ready → s.frameReady → ∃ r : Byte,
      exec (.setDir motor dir) s = .next (s.afterFrame r) ∧
      r.getLsbD (s.board.pair (slotOf motor)).bitA = dir.code.getLsbD 0 ∧
      r.getLsbD (s.board.pair (slotOf motor)).bitB = dir.code.getLsbD 1 ∧
      ∀ k : Pos, k ≠ (s.board.pair (slotOf motor)).bitA → k ≠ (s.board.pair (slotOf motor)).bitB →
        r.getLsbD k = s.reg.getLsbD k) ∧
    (s.phase = .off → exec (.setDir motor dir) s = .refused .notConstructed)) ∧
  slotOf 0#8 = .four ∧ slotOf 5#8 = .one ∧
  ∀ a b : Board, a.pairTable = b.pairTable → a.variant ≠ b.variant →
    a.pair .one = b.pair .one ∧ a.pair .two = b.pair .two ∧
    ∀ s : Slot, s = .three ∨ s = .four →
      (a.pair s).bitA ≠ (b.pair s).bitA ∧ (a.pair s).bitA ≠ (b.pair s).bitB ∧
      (a.pair s).bitB ≠ (b.pair s).bitA ∧ (a.pair s).bitB ≠ (b.pair s).bitB

/-- `SETSPEED` (R84): in `READY` its one event is `PWM(s, speed)` and `DUTY[s]` becomes `speed`, for `s` the slot of the
motor index, resolved as for `SETDIR`; the other three duties, `REG`, the pins, the device and all else are as before
and no frame is sent. In `OFF` it is refused (decisions D11 and D16). -/
def Obligations.SetSpeedWritesOneDuty : Prop :=
  ∀ (s : State) (motor speed : Byte), s.busy = false →
    (s.phase = .ready → ∃ q : Quad Byte,
      exec (.setSpeed motor speed) s = .next { s with
        duty := q, trace := s.trace ++ [.pwm (slotOf motor) speed], inflight := [] } ∧
      q.get (slotOf motor) = speed ∧ ∀ t : Slot, t ≠ slotOf motor → q.get t = s.duty.get t) ∧
    (s.phase = .off → exec (.setSpeed motor speed) s = .refused .notConstructed)

/-- `NEW` (R80, R81), in either phase: its trace is the rule's, `REG` is 0, the pins are configured and as after a frame of
eight 0 bits with `ENABLE_N` low, `SR = OUT = 0`, `PHASE` is `READY`, every duty is 255 if `maxspeed` and unchanged if not,
and all else is as before (decisions D9, D10, D16). `CLOCK` is undriven or low whenever no frame is being sent. -/
def Obligations.NewConstructsTheBlock : Prop :=
  ∀ (s : State) (maxspeed : Bool), s.busy = false → s.pins.clock ≠ .driven true → ∃ n : Nat,
    exec (.new maxspeed) s = .next { s with
      reg := 0#8
      phase := .ready
      seq := 31#5
      pins := { latch := .driven true, data := .driven false, clock := .driven false, enableN := .driven false }
      duty := if maxspeed then { one := 255#8, two := 255#8, three := 255#8, four := 255#8 } else s.duty
      sr := Stage.ofByte 0#8
      out := 0#8
      trace := s.trace ++ configEvents ++ frameEvents 0#8 ++ [.write .enableN false] ++
        (if maxspeed then [.pwm .one 255#8, .pwm .two 255#8, .pwm .three 255#8, .pwm .four 255#8] else [])
      inflight := []
      draws := n }

/-- The refusals of an idle block are the closed list of R93 and nothing else: `RF_NOT_CONSTRUCTED` exactly for a command
other than `NEW` in `OFF`, and `RF_SAME_BIT` exactly for a `SETPAIR` with equal positions in `READY`, the phase check
being made first (R92, R93; decisions D11, D13, D24). -/
def Obligations.RefusalsAreExactlyTheClosedList : Prop :=
  ∀ (s : State) (i : Instr) (reason : Refusal), s.busy = false →
    (exec i s = .refused reason ↔
      (reason = .notConstructed ∧ s.phase = .off ∧ i.isNew = false) ∨
      (reason = .sameBit ∧ s.phase = .ready ∧ i.wellFormed = false))

/-- Every command that is not refused completes, and completes in full: from every state that meets the invariant there
is no fault, and the state after has no command in progress, no frame without its closing `W(LATCH, 1)`, and no `REG`
that has not been sent (R90, R94). -/
def Obligations.EveryCommandNotRefusedCompletesInFull : Prop :=
  ∀ (s : State) (i : Instr), s.Inv →
    (∃ reason, exec i s = .refused reason) ∨
    ∃ t : State, exec i s = .next t ∧ t.busy = false ∧ t.inflight = [] ∧ t.seq = 31#5 ∧
      t.pins.latch = .driven true ∧ t.out = t.reg ∧ t.sr.toByte = t.reg

/-- The trace a command adds, from every state that meets the invariant, and its length: 26 for `REGINIT`, `SETPAIR` and
`SETDIR`, of which 2 write `LATCH`, 8 `DATA` and 16 `CLOCK`; 1 for `SETSPEED`; 35 or 39 for `NEW` (R76, R81, R112). -/
def Obligations.CommandsEmitTheirTraceAndNothingElse : Prop :=
  ∀ (s t : State) (i : Instr), s.Inv → exec i s = .next t → ∃ events : List Event,
    t.trace = s.trace ++ events ∧ events = commandEvents s.board s.reg i ∧
    events.length = (match i with
      | .new maxspeed => if maxspeed then 39 else 35
      | .setDir _ _ => 26
      | .setSpeed _ _ => 1
      | .regInit => 26
      | .setPair _ _ _ _ => 26) ∧
    ((∀ motor speed, i ≠ .setSpeed motor speed) →
      events.countP (Event.writesPin .latch) = 2 ∧ events.countP (Event.writesPin .data) = 8 ∧
      events.countP (Event.writesPin .clock) = 16)

/-! ## Frames: who writes what -/

/-- `REG` is written by the clear of `REGINIT` and `NEW`, which sets all eight bits to 0, and by the bit-pair write of
`SETPAIR` and `SETDIR`, which changes no bit but the two it names; `SETSPEED` does not write it (R11). -/
def Obligations.RegisterHasTwoWriters : Prop :=
  ∀ (s t : State) (i : Instr), s.busy = false → exec i s = .next t →
    match i with
    | .new _ => t.reg = 0#8
    | .regInit => t.reg = 0#8
    | .setSpeed _ _ => t.reg = s.reg
    | .setPair bitA _ bitB _ => ∀ k : Pos, k ≠ bitA → k ≠ bitB → t.reg.getLsbD k = s.reg.getLsbD k
    | .setDir motor _ => ∀ k : Pos, k ≠ (s.board.pair (slotOf motor)).bitA →
        k ≠ (s.board.pair (slotOf motor)).bitB → t.reg.getLsbD k = s.reg.getLsbD k

/-- No command ever emits `W(ENABLE_N, 1)`; only `NEW` writes `ENABLE_N`, once and low, and its level is 0 after it; every
other command leaves the level as it is (R20, decision D22). -/
def Obligations.EnableIsOnlyEverAsserted : Prop :=
  ∀ (s t : State) (i : Instr), s.busy = false → exec i s = .next t → ∃ events : List Event,
    t.trace = s.trace ++ events ∧ Event.write .enableN true ∉ events ∧
    (i.isNew = true → t.pins.enableN = .driven false ∧ events.count (.write .enableN false) = 1) ∧
    (i.isNew = false → t.pins.enableN = s.pins.enableN ∧ Event.write .enableN false ∉ events)

/-- `DUTY` is written only by `SETSPEED`, one entry, and by `NEW` with `maxspeed = 1`, all four (R21, decision D16). -/
def Obligations.DutyHasTwoWriters : Prop :=
  ∀ (s t : State) (i : Instr), s.busy = false → exec i s = .next t → ∀ m : Slot,
    t.duty.get m = (match i with
      | .new maxspeed => if maxspeed then 255#8 else s.duty.get m
      | .setSpeed motor speed => if slotOf motor = m then speed else s.duty.get m
      | .setDir _ _ => s.duty.get m
      | .regInit => s.duty.get m
      | .setPair _ _ _ _ => s.duty.get m)

/-- No step writes the tables, the variant or the pin map, whatever state it starts from, so they have the same contents
before and after every command (R14, R47). -/
def Obligations.NoStepChangesTheTables : Prop :=
  ∀ s t : State, step s = .next t → t.board = s.board

/-- The block never loads anything from the downstream device, and the PWM boundary is read by nothing: two states that
differ only in `SR` and `OUT`, or only in `DUTY`, take a command to results that differ only there (R12, R21, R24). -/
def Obligations.DeviceAndDutyAreNeverReadBack : Prop :=
  ∀ (s s' : State) (i : Instr),
    (s.hideDevice = s'.hideDevice → view State.hideDevice (exec i s) = view State.hideDevice (exec i s')) ∧
    (s.hideDuty = s'.hideDuty → view State.hideDuty (exec i s) = view State.hideDuty (exec i s'))

/-! ## Laws of the bit-pair write and of directions -/

/-- The five laws of the bit-pair write (R73, derived there from R72): frame, last write wins, idempotence, commutation
of disjoint pairs, symmetry of the operands. -/
def Obligations.PairWriteLaws : Prop :=
  ∀ (s : State) (a b : Pos) (x y : Bool), s.Inv → s.phase = .ready → a ≠ b →
    (∃ t : State, exec (.setPair a x b y) s = .next t ∧
      (∀ k : Pos, k ≠ a → k ≠ b → t.reg.getLsbD k = s.reg.getLsbD k) ∧
      ∃ u : State, exec (.setPair a x b y) t = .next u ∧ u.reg = t.reg) ∧
    (∀ x' y' : Bool, ∃ t : State, runAll [.setPair a x b y, .setPair a x' b y'] s = .next t ∧
      t.reg.getLsbD a = x' ∧ t.reg.getLsbD b = y') ∧
    (∀ (c d : Pos) (z w : Bool), c ≠ d → a ≠ c → a ≠ d → b ≠ c → b ≠ d → ∃ t u : State,
      runAll [.setPair a x b y, .setPair c z d w] s = .next t ∧
      runAll [.setPair c z d w, .setPair a x b y] s = .next u ∧ t.reg = u.reg) ∧
    exec (.setPair a x b y) s = exec (.setPair b y a x) s

/-- The six properties of `SETDIR` (R83, derived there; each a testable property of the source, S1 to S3): no cross-talk,
final state only, round trip, always transmits, aliasing, independence from speed. -/
def Obligations.SetDirProperties : Prop :=
  ∀ (s : State) (m : Byte) (d : Direction), s.Inv → s.phase = .ready →
    (∃ t : State, exec (.setDir m d) s = .next t ∧
      (∀ n : Slot, n ≠ slotOf m → t.direction n = s.direction n) ∧
      t.direction (slotOf m) = d ∧
      t.trace = s.trace ++ frameEvents t.reg ∧
      t.duty = s.duty ∧
      ∀ e : Direction, ∃ u : State, runAll [.setDir m d, .setDir m e, .setDir m d] s = .next u ∧
        u.reg = t.reg ∧ u.out = t.out) ∧
    exec (.setDir (m + 4#8) d) s = exec (.setDir m d) s ∧
    ∀ q : Quad Byte, exec (.setDir m d) { s with duty := q } = view (fun t => { t with duty := q }) (exec (.setDir m d) s)

/-- The state machine of every slot: one `SETDIR` moves it from any direction to any direction, itself included, and
leaves the other three where they are; `REGINIT` and `NEW` move all four to Release at once; a speed moves none (R85). -/
def Obligations.EveryDirectionMayFollowEveryOther : Prop :=
  ∀ (s : State) (m : Byte) (maxspeed : Bool), s.Inv → s.phase = .ready →
    (∀ d : Direction, ∃ t : State, exec (.setDir m d) s = .next t ∧
      ∀ n : Slot, t.direction n = if n = slotOf m then d else s.direction n) ∧
    (∃ t : State, exec .regInit s = .next t ∧ ∀ n : Slot, t.direction n = .release) ∧
    (∃ t : State, exec (.new maxspeed) s = .next t ∧ ∀ n : Slot, t.direction n = .release) ∧
    ∀ v : Byte, ∃ t : State, exec (.setSpeed m v) s = .next t ∧ ∀ n : Slot, t.direction n = s.direction n

/-- At all times `REG` reflects the union of the last-commanded directions: after any history of `NEW`, `REGINIT` and
`SETDIR`, issued to a constructed block or beginning with `NEW`, every slot's direction is that of the last `SETDIR` to it
since the last `REGINIT` or `NEW`, Release if there was none; and after any history of well-formed commands every bit is
the one last written to it (R13). -/
def Obligations.RegisterReflectsTheLastCommandOfEverySlot : Prop :=
  ∀ (s : State) (h : List Instr), s.Inv → (s.phase = .ready ∨ ∃ m rest, h = .new m :: rest) →
    ((∀ i ∈ h, i.keepsSlots = true) → ∃ t : State, runAll h s = .next t ∧ t.Inv ∧
      ∀ n : Slot, t.direction n = lastCommanded n h (s.direction n)) ∧
    ((∀ i ∈ h, i.wellFormed = true) → ∃ t : State, runAll h s = .next t ∧ t.Inv ∧
      ∀ k : Pos, t.reg.getLsbD k = lastWritten s.board k h (s.reg.getLsbD k))

/-- Speed and direction are independent, in a constructed block: a `SETSPEED` of 0 stops the drive and changes no
direction; `SETDIR` changes no duty; after `NEW 1` every duty is 255 and no motor may turn. That a motor "may turn" exactly
when its code is Forward or Backward and its duty is not 0 is the model's definition `State.motorMayTurn` (log entry 13,
DEDUCED): R109 says only that a motor turns only then, and the "if" half says nothing of a real motor. (R80(a), R84(a),
R109; decision D16.) -/
def Obligations.SpeedAndDirectionAreIndependent : Prop :=
  ∀ s : State, s.Inv → s.phase = .ready →
    (∀ m : Byte, ∃ t : State, exec (.setSpeed m 0#8) s = .next t ∧ (∀ n : Slot, t.direction n = s.direction n) ∧
      t.motorMayTurn (slotOf m) = false) ∧
    (∀ (m : Byte) (d : Direction), ∃ t : State, exec (.setDir m d) s = .next t ∧ t.duty = s.duty ∧
      (t.motorMayTurn (slotOf m) = true ↔ (d = .forward ∨ d = .backward) ∧ s.duty.get (slotOf m) ≠ 0#8)) ∧
    ∃ t : State, exec (.new true) s = .next t ∧ ∀ n : Slot, t.duty.get n = 255#8 ∧ t.motorMayTurn n = false

/-! ## The machine as a whole -/

/-- A step with a command word presented runs its command, the word taken from the port and nothing else added; with
none presented an idle block waits and changes nothing (R29, R47, R67, R113; log entry 7). -/
def Obligations.StepRunsThePresentedCommand : Prop :=
  ∀ (s : State) (w : Word) (rest : List Word) (i : Instr),
    (s.pending = w :: rest → decode w = .ok i → step s = exec i { s with pending := rest }) ∧
    (s.pending = [] → s.busy = false → step s = .next s)

/-- Presenting the word of any command makes the very next step that command (R59, R67). -/
def Obligations.PresentedWordRunsItsCommand : Prop :=
  ∀ (s : State) (i : Instr), step (s.withFetchWord 20 (encode i).toNat) = exec i s

/-- The block has two phases. In `OFF` only `NEW` has a meaning; in `READY` all five commands have one; `READY` is entered
when a `NEW` completes and never left, whatever state a step starts from (R95). -/
def Obligations.ReadyIsEnteredByNewAndNeverLeft : Prop :=
  (∀ (s : State) (i : Instr), s.Inv → s.phase = .off → i.isNew = false → exec i s = .refused .notConstructed) ∧
  (∀ (s : State) (maxspeed : Bool), s.Inv → ∃ t : State, exec (.new maxspeed) s = .next t ∧ t.phase = .ready) ∧
  (∀ (s : State) (i : Instr), s.Inv → s.phase = .ready → i.wellFormed = true → ∃ t : State, exec i s = .next t) ∧
  (∀ (s t : State) (i : Instr), exec i s = .next t → t.phase = .ready) ∧
  ∀ s t : State, step s = .next t → s.phase = .ready → t.phase = .ready

/-- What power-on leaves, of the values the spec gives (R28, R100, decision D12): `PHASE = OFF`, `BUSY = 0`, `SEQ = 31`, every
pin `Z`, so the outputs are not driven; no event, no command. Nothing is said of `REG`, `DUTY`, `SR` and `OUT`. -/
def Obligations.PowerOnState : Prop :=
  State.reset.phase = .off ∧ State.reset.busy = false ∧ State.reset.seq = 31#5 ∧
  (∀ p : Pin, State.reset.pins.get p = .z) ∧ State.reset.outputs = none ∧
  State.reset.trace = [] ∧ State.reset.pending = [] ∧ State.reset.inflight = []

/-- The invariant of the block between commands holds at power-on (R28, R100). -/
def Obligations.InvariantHoldsAtPowerOn : Prop :=
  State.reset.Inv

/-- Every step keeps the invariant of the block between commands: idle, `SEQ = 31`, pins undriven in `OFF`, and in `READY`
the pins as after a frame with the enable asserted and `SR = OUT = REG` (R13, R15, R16, R20, R25, R42, R74). -/
def Obligations.EveryStepKeepsTheInvariant : Prop :=
  ∀ s t : State, s.Inv → step s = .next t → t.Inv

/-- From every state that meets the invariant, the outputs after a command are driven and show `REG`; before the first
`NEW` they are not driven (R24, R41, R42, R45; decision D15). -/
def Obligations.OutputsShowTheRegisterAfterEveryCommand : Prop :=
  ∀ (s t : State) (i : Instr), s.Inv →
    (exec i s = .next t → t.outputs = some t.reg) ∧ (s.phase = .off → s.outputs = none)

/-- `BUSY` is 1 from acceptance until the last line of the command has been done, and 0 once the command is complete, with
nothing in progress (R16, R25, R67; decision D14). -/
def Obligations.BusyFromAcceptanceToTheLastLine : Prop :=
  ∀ (s : State) (lines : List Micro),
    (∀ (n : Nat) (u : State), n ≤ lines.length → advanceBy n (accept lines s) = .next u →
      u.busy = true ∧ u.inflight = lines.drop n) ∧
    ∀ t : State, settle (accept lines s) = .next t →
      t.busy = false ∧ t.inflight = [] ∧ advanceBy (lines.length + 1) (accept lines s) = .next t

/-- A command may be looked at after any of its lines and still ends in the same state with the same trace: going on from
there is the rest of the same command, and a command is never abandoned part-way (R94; the agreement of the two
granularities is decision D14). -/
def Obligations.CommandResumedAtAnyLineEndsTheSame : Prop :=
  ∀ (s u : State) (n : Nat), s.busy = true → advanceBy n s = .next u → u.busy = true → settle u = settle s

/-- A command presented while `BUSY = 1` has no effect until `BUSY = 0`: the command in progress is completed first and the
presented one is then accepted by an idle block (R67, U16; decisions D14 and D25). -/
def Obligations.CommandPresentedWhileBusyWaits : Prop :=
  ∀ (s : State) (i : Instr), s.busy = true →
    exec i s = andThen (settle s) (exec i) ∧ ∀ t : State, settle s = .next t → t.busy = false
end

