-- ==== Sys2Proof/Laws/Bits.lean ====
section
/-! SUPPORT. The bit operations: one bit of `REG` written (R72), a byte laid out in the shift stage (R24, R39),
directions and their bits (R50, R51). -/

namespace Sys2Proof

/-- Bit i of the byte a stage holds is its cell `qi`. -/
theorem Stage.toByte_bits (v : Stage) :
    v.toByte.getLsbD 0 = v.q0 ∧ v.toByte.getLsbD 1 = v.q1 ∧ v.toByte.getLsbD 2 = v.q2 ∧ v.toByte.getLsbD 3 = v.q3 ∧
    v.toByte.getLsbD 4 = v.q4 ∧ v.toByte.getLsbD 5 = v.q5 ∧ v.toByte.getLsbD 6 = v.q6 ∧ v.toByte.getLsbD 7 = v.q7 := by
  obtain ⟨q0, q1, q2, q3, q4, q5, q6, q7⟩ := v
  revert q0 q1 q2 q3 q4 q5 q6 q7
  decide

@[simp] theorem Stage.toByte_ofByte (r : Byte) : (Stage.ofByte r).toByte = r := by
  obtain ⟨h0, h1, h2, h3, h4, h5, h6, h7⟩ := Stage.toByte_bits (Stage.ofByte r)
  apply BitVec.eq_of_getLsbD_eq
  intro i hi
  have : i = 0 ∨ i = 1 ∨ i = 2 ∨ i = 3 ∨ i = 4 ∨ i = 5 ∨ i = 6 ∨ i = 7 := by omega
  rcases this with h | h | h | h | h | h | h | h <;> subst h <;> assumption

theorem directionOfBits_dirBits (d : Direction) : directionOfBits (dirBits d).1 (dirBits d).2 = d := by
  cases d <;> rfl

namespace Machine

/-- `1 << i` on 8 bits has the one bit `i` (R72, R73). -/
theorem oneHot_getLsbD (i j : Pos) : (1#8 <<< i.val).getLsbD j = decide (j = i) := by
  revert i j
  decide

/-- The bit written has the value and every other bit is kept (00_scope.md section 5, R72). -/
theorem writeBit_getLsbD (r : Byte) (i j : Pos) (v : Bool) :
    (writeBit r i v).getLsbD j = if j = i then v else r.getLsbD j := by
  fin_cases i <;> fin_cases j <;> cases v <;> simp [writeBit]

end Machine
end Sys2Proof
end

