-- ==== Sys2Proof/Laws/State.lean ====
section
/-! SUPPORT. Every field after every named update of the state, and the entries of slots and pins after an update. -/

namespace Sys2Proof

theorem Quad.get_set {α : Type} (q : Quad α) (s t : Slot) (v : α) :
    (q.set s v).get t = if t = s then v else q.get t := by
  cases s <;> cases t <;> rfl

namespace Machine

theorem Pins.get_set (q : Pins) (p r : Pin) (v : PinState) :
    (q.set p v).get r = if r = p then v else q.get r := by
  cases p <;> cases r <;> rfl

/-! ### `setReg` -/

@[simp] theorem State.setReg_board (s : State) (v : Byte) : (s.setReg v).board = s.board := rfl
@[simp] theorem State.setReg_reg (s : State) (v : Byte) : (s.setReg v).reg = v := rfl
@[simp] theorem State.setReg_phase (s : State) (v : Byte) : (s.setReg v).phase = s.phase := rfl
@[simp] theorem State.setReg_busy (s : State) (v : Byte) : (s.setReg v).busy = s.busy := rfl
@[simp] theorem State.setReg_seq (s : State) (v : Byte) : (s.setReg v).seq = s.seq := rfl
@[simp] theorem State.setReg_pins (s : State) (v : Byte) : (s.setReg v).pins = s.pins := rfl
@[simp] theorem State.setReg_duty (s : State) (v : Byte) : (s.setReg v).duty = s.duty := rfl
@[simp] theorem State.setReg_sr (s : State) (v : Byte) : (s.setReg v).sr = s.sr := rfl
@[simp] theorem State.setReg_out (s : State) (v : Byte) : (s.setReg v).out = s.out := rfl
@[simp] theorem State.setReg_trace (s : State) (v : Byte) : (s.setReg v).trace = s.trace := rfl
@[simp] theorem State.setReg_pending (s : State) (v : Byte) : (s.setReg v).pending = s.pending := rfl
@[simp] theorem State.setReg_inflight (s : State) (v : Byte) : (s.setReg v).inflight = s.inflight := rfl
@[simp] theorem State.setReg_draws (s : State) (v : Byte) : (s.setReg v).draws = s.draws := rfl

/-! ### `setPhase` -/

@[simp] theorem State.setPhase_board (s : State) (p : Phase) : (s.setPhase p).board = s.board := rfl
@[simp] theorem State.setPhase_reg (s : State) (p : Phase) : (s.setPhase p).reg = s.reg := rfl
@[simp] theorem State.setPhase_phase (s : State) (p : Phase) : (s.setPhase p).phase = p := rfl
@[simp] theorem State.setPhase_busy (s : State) (p : Phase) : (s.setPhase p).busy = s.busy := rfl
@[simp] theorem State.setPhase_seq (s : State) (p : Phase) : (s.setPhase p).seq = s.seq := rfl
@[simp] theorem State.setPhase_pins (s : State) (p : Phase) : (s.setPhase p).pins = s.pins := rfl
@[simp] theorem State.setPhase_duty (s : State) (p : Phase) : (s.setPhase p).duty = s.duty := rfl
@[simp] theorem State.setPhase_sr (s : State) (p : Phase) : (s.setPhase p).sr = s.sr := rfl
@[simp] theorem State.setPhase_out (s : State) (p : Phase) : (s.setPhase p).out = s.out := rfl
@[simp] theorem State.setPhase_trace (s : State) (p : Phase) : (s.setPhase p).trace = s.trace := rfl
@[simp] theorem State.setPhase_pending (s : State) (p : Phase) : (s.setPhase p).pending = s.pending := rfl
@[simp] theorem State.setPhase_inflight (s : State) (p : Phase) : (s.setPhase p).inflight = s.inflight := rfl
@[simp] theorem State.setPhase_draws (s : State) (p : Phase) : (s.setPhase p).draws = s.draws := rfl

/-! ### `setBusy` -/

@[simp] theorem State.setBusy_board (s : State) (b : Bool) : (s.setBusy b).board = s.board := rfl
@[simp] theorem State.setBusy_reg (s : State) (b : Bool) : (s.setBusy b).reg = s.reg := rfl
@[simp] theorem State.setBusy_phase (s : State) (b : Bool) : (s.setBusy b).phase = s.phase := rfl
@[simp] theorem State.setBusy_busy (s : State) (b : Bool) : (s.setBusy b).busy = b := rfl
@[simp] theorem State.setBusy_seq (s : State) (b : Bool) : (s.setBusy b).seq = s.seq := rfl
@[simp] theorem State.setBusy_pins (s : State) (b : Bool) : (s.setBusy b).pins = s.pins := rfl
@[simp] theorem State.setBusy_duty (s : State) (b : Bool) : (s.setBusy b).duty = s.duty := rfl
@[simp] theorem State.setBusy_sr (s : State) (b : Bool) : (s.setBusy b).sr = s.sr := rfl
@[simp] theorem State.setBusy_out (s : State) (b : Bool) : (s.setBusy b).out = s.out := rfl
@[simp] theorem State.setBusy_trace (s : State) (b : Bool) : (s.setBusy b).trace = s.trace := rfl
@[simp] theorem State.setBusy_pending (s : State) (b : Bool) : (s.setBusy b).pending = s.pending := rfl
@[simp] theorem State.setBusy_inflight (s : State) (b : Bool) : (s.setBusy b).inflight = s.inflight := rfl
@[simp] theorem State.setBusy_draws (s : State) (b : Bool) : (s.setBusy b).draws = s.draws := rfl

/-! ### `setSeq` -/

@[simp] theorem State.setSeq_board (s : State) (k : BitVec 5) : (s.setSeq k).board = s.board := rfl
@[simp] theorem State.setSeq_reg (s : State) (k : BitVec 5) : (s.setSeq k).reg = s.reg := rfl
@[simp] theorem State.setSeq_phase (s : State) (k : BitVec 5) : (s.setSeq k).phase = s.phase := rfl
@[simp] theorem State.setSeq_busy (s : State) (k : BitVec 5) : (s.setSeq k).busy = s.busy := rfl
@[simp] theorem State.setSeq_seq (s : State) (k : BitVec 5) : (s.setSeq k).seq = k := rfl
@[simp] theorem State.setSeq_pins (s : State) (k : BitVec 5) : (s.setSeq k).pins = s.pins := rfl
@[simp] theorem State.setSeq_duty (s : State) (k : BitVec 5) : (s.setSeq k).duty = s.duty := rfl
@[simp] theorem State.setSeq_sr (s : State) (k : BitVec 5) : (s.setSeq k).sr = s.sr := rfl
@[simp] theorem State.setSeq_out (s : State) (k : BitVec 5) : (s.setSeq k).out = s.out := rfl
@[simp] theorem State.setSeq_trace (s : State) (k : BitVec 5) : (s.setSeq k).trace = s.trace := rfl
@[simp] theorem State.setSeq_pending (s : State) (k : BitVec 5) : (s.setSeq k).pending = s.pending := rfl
@[simp] theorem State.setSeq_inflight (s : State) (k : BitVec 5) : (s.setSeq k).inflight = s.inflight := rfl
@[simp] theorem State.setSeq_draws (s : State) (k : BitVec 5) : (s.setSeq k).draws = s.draws := rfl

/-! ### `setPin` -/

@[simp] theorem State.setPin_board (s : State) (p : Pin) (v : PinState) : (s.setPin p v).board = s.board := rfl
@[simp] theorem State.setPin_reg (s : State) (p : Pin) (v : PinState) : (s.setPin p v).reg = s.reg := rfl
@[simp] theorem State.setPin_phase (s : State) (p : Pin) (v : PinState) : (s.setPin p v).phase = s.phase := rfl
@[simp] theorem State.setPin_busy (s : State) (p : Pin) (v : PinState) : (s.setPin p v).busy = s.busy := rfl
@[simp] theorem State.setPin_seq (s : State) (p : Pin) (v : PinState) : (s.setPin p v).seq = s.seq := rfl
@[simp] theorem State.setPin_pins (s : State) (p : Pin) (v : PinState) : (s.setPin p v).pins = s.pins.set p v := rfl
@[simp] theorem State.setPin_duty (s : State) (p : Pin) (v : PinState) : (s.setPin p v).duty = s.duty := rfl
@[simp] theorem State.setPin_sr (s : State) (p : Pin) (v : PinState) : (s.setPin p v).sr = s.sr := rfl
@[simp] theorem State.setPin_out (s : State) (p : Pin) (v : PinState) : (s.setPin p v).out = s.out := rfl
@[simp] theorem State.setPin_trace (s : State) (p : Pin) (v : PinState) : (s.setPin p v).trace = s.trace := rfl
@[simp] theorem State.setPin_pending (s : State) (p : Pin) (v : PinState) : (s.setPin p v).pending = s.pending := rfl
@[simp] theorem State.setPin_inflight (s : State) (p : Pin) (v : PinState) : (s.setPin p v).inflight = s.inflight := rfl
@[simp] theorem State.setPin_draws (s : State) (p : Pin) (v : PinState) : (s.setPin p v).draws = s.draws := rfl

/-! ### `setDuty` -/

@[simp] theorem State.setDuty_board (s : State) (t : Slot) (d : Byte) : (s.setDuty t d).board = s.board := rfl
@[simp] theorem State.setDuty_reg (s : State) (t : Slot) (d : Byte) : (s.setDuty t d).reg = s.reg := rfl
@[simp] theorem State.setDuty_phase (s : State) (t : Slot) (d : Byte) : (s.setDuty t d).phase = s.phase := rfl
@[simp] theorem State.setDuty_busy (s : State) (t : Slot) (d : Byte) : (s.setDuty t d).busy = s.busy := rfl
@[simp] theorem State.setDuty_seq (s : State) (t : Slot) (d : Byte) : (s.setDuty t d).seq = s.seq := rfl
@[simp] theorem State.setDuty_pins (s : State) (t : Slot) (d : Byte) : (s.setDuty t d).pins = s.pins := rfl
@[simp] theorem State.setDuty_duty (s : State) (t : Slot) (d : Byte) : (s.setDuty t d).duty = s.duty.set t d := rfl
@[simp] theorem State.setDuty_sr (s : State) (t : Slot) (d : Byte) : (s.setDuty t d).sr = s.sr := rfl
@[simp] theorem State.setDuty_out (s : State) (t : Slot) (d : Byte) : (s.setDuty t d).out = s.out := rfl
@[simp] theorem State.setDuty_trace (s : State) (t : Slot) (d : Byte) : (s.setDuty t d).trace = s.trace := rfl
@[simp] theorem State.setDuty_pending (s : State) (t : Slot) (d : Byte) : (s.setDuty t d).pending = s.pending := rfl
@[simp] theorem State.setDuty_inflight (s : State) (t : Slot) (d : Byte) : (s.setDuty t d).inflight = s.inflight := rfl
@[simp] theorem State.setDuty_draws (s : State) (t : Slot) (d : Byte) : (s.setDuty t d).draws = s.draws := rfl

/-! ### `setSr` -/

@[simp] theorem State.setSr_board (s : State) (v : Stage) : (s.setSr v).board = s.board := rfl
@[simp] theorem State.setSr_reg (s : State) (v : Stage) : (s.setSr v).reg = s.reg := rfl
@[simp] theorem State.setSr_phase (s : State) (v : Stage) : (s.setSr v).phase = s.phase := rfl
@[simp] theorem State.setSr_busy (s : State) (v : Stage) : (s.setSr v).busy = s.busy := rfl
@[simp] theorem State.setSr_seq (s : State) (v : Stage) : (s.setSr v).seq = s.seq := rfl
@[simp] theorem State.setSr_pins (s : State) (v : Stage) : (s.setSr v).pins = s.pins := rfl
@[simp] theorem State.setSr_duty (s : State) (v : Stage) : (s.setSr v).duty = s.duty := rfl
@[simp] theorem State.setSr_sr (s : State) (v : Stage) : (s.setSr v).sr = v := rfl
@[simp] theorem State.setSr_out (s : State) (v : Stage) : (s.setSr v).out = s.out := rfl
@[simp] theorem State.setSr_trace (s : State) (v : Stage) : (s.setSr v).trace = s.trace := rfl
@[simp] theorem State.setSr_pending (s : State) (v : Stage) : (s.setSr v).pending = s.pending := rfl
@[simp] theorem State.setSr_inflight (s : State) (v : Stage) : (s.setSr v).inflight = s.inflight := rfl
@[simp] theorem State.setSr_draws (s : State) (v : Stage) : (s.setSr v).draws = s.draws := rfl

/-! ### `setOut` -/

@[simp] theorem State.setOut_board (s : State) (v : Byte) : (s.setOut v).board = s.board := rfl
@[simp] theorem State.setOut_reg (s : State) (v : Byte) : (s.setOut v).reg = s.reg := rfl
@[simp] theorem State.setOut_phase (s : State) (v : Byte) : (s.setOut v).phase = s.phase := rfl
@[simp] theorem State.setOut_busy (s : State) (v : Byte) : (s.setOut v).busy = s.busy := rfl
@[simp] theorem State.setOut_seq (s : State) (v : Byte) : (s.setOut v).seq = s.seq := rfl
@[simp] theorem State.setOut_pins (s : State) (v : Byte) : (s.setOut v).pins = s.pins := rfl
@[simp] theorem State.setOut_duty (s : State) (v : Byte) : (s.setOut v).duty = s.duty := rfl
@[simp] theorem State.setOut_sr (s : State) (v : Byte) : (s.setOut v).sr = s.sr := rfl
@[simp] theorem State.setOut_out (s : State) (v : Byte) : (s.setOut v).out = v := rfl
@[simp] theorem State.setOut_trace (s : State) (v : Byte) : (s.setOut v).trace = s.trace := rfl
@[simp] theorem State.setOut_pending (s : State) (v : Byte) : (s.setOut v).pending = s.pending := rfl
@[simp] theorem State.setOut_inflight (s : State) (v : Byte) : (s.setOut v).inflight = s.inflight := rfl
@[simp] theorem State.setOut_draws (s : State) (v : Byte) : (s.setOut v).draws = s.draws := rfl

/-! ### `emit` -/

@[simp] theorem State.emit_board (s : State) (e : Event) : (s.emit e).board = s.board := rfl
@[simp] theorem State.emit_reg (s : State) (e : Event) : (s.emit e).reg = s.reg := rfl
@[simp] theorem State.emit_phase (s : State) (e : Event) : (s.emit e).phase = s.phase := rfl
@[simp] theorem State.emit_busy (s : State) (e : Event) : (s.emit e).busy = s.busy := rfl
@[simp] theorem State.emit_seq (s : State) (e : Event) : (s.emit e).seq = s.seq := rfl
@[simp] theorem State.emit_pins (s : State) (e : Event) : (s.emit e).pins = s.pins := rfl
@[simp] theorem State.emit_duty (s : State) (e : Event) : (s.emit e).duty = s.duty := rfl
@[simp] theorem State.emit_sr (s : State) (e : Event) : (s.emit e).sr = s.sr := rfl
@[simp] theorem State.emit_out (s : State) (e : Event) : (s.emit e).out = s.out := rfl
@[simp] theorem State.emit_trace (s : State) (e : Event) : (s.emit e).trace = s.trace ++ [e] := rfl
@[simp] theorem State.emit_pending (s : State) (e : Event) : (s.emit e).pending = s.pending := rfl
@[simp] theorem State.emit_inflight (s : State) (e : Event) : (s.emit e).inflight = s.inflight := rfl
@[simp] theorem State.emit_draws (s : State) (e : Event) : (s.emit e).draws = s.draws := rfl

/-! ### `setPending` -/

@[simp] theorem State.setPending_board (s : State) (ws : List Word) : (s.setPending ws).board = s.board := rfl
@[simp] theorem State.setPending_reg (s : State) (ws : List Word) : (s.setPending ws).reg = s.reg := rfl
@[simp] theorem State.setPending_phase (s : State) (ws : List Word) : (s.setPending ws).phase = s.phase := rfl
@[simp] theorem State.setPending_busy (s : State) (ws : List Word) : (s.setPending ws).busy = s.busy := rfl
@[simp] theorem State.setPending_seq (s : State) (ws : List Word) : (s.setPending ws).seq = s.seq := rfl
@[simp] theorem State.setPending_pins (s : State) (ws : List Word) : (s.setPending ws).pins = s.pins := rfl
@[simp] theorem State.setPending_duty (s : State) (ws : List Word) : (s.setPending ws).duty = s.duty := rfl
@[simp] theorem State.setPending_sr (s : State) (ws : List Word) : (s.setPending ws).sr = s.sr := rfl
@[simp] theorem State.setPending_out (s : State) (ws : List Word) : (s.setPending ws).out = s.out := rfl
@[simp] theorem State.setPending_trace (s : State) (ws : List Word) : (s.setPending ws).trace = s.trace := rfl
@[simp] theorem State.setPending_pending (s : State) (ws : List Word) : (s.setPending ws).pending = ws := rfl
@[simp] theorem State.setPending_inflight (s : State) (ws : List Word) : (s.setPending ws).inflight = s.inflight := rfl
@[simp] theorem State.setPending_draws (s : State) (ws : List Word) : (s.setPending ws).draws = s.draws := rfl

/-! ### `setInflight` -/

@[simp] theorem State.setInflight_board (s : State) (ops : List Micro) : (s.setInflight ops).board = s.board := rfl
@[simp] theorem State.setInflight_reg (s : State) (ops : List Micro) : (s.setInflight ops).reg = s.reg := rfl
@[simp] theorem State.setInflight_phase (s : State) (ops : List Micro) : (s.setInflight ops).phase = s.phase := rfl
@[simp] theorem State.setInflight_busy (s : State) (ops : List Micro) : (s.setInflight ops).busy = s.busy := rfl
@[simp] theorem State.setInflight_seq (s : State) (ops : List Micro) : (s.setInflight ops).seq = s.seq := rfl
@[simp] theorem State.setInflight_pins (s : State) (ops : List Micro) : (s.setInflight ops).pins = s.pins := rfl
@[simp] theorem State.setInflight_duty (s : State) (ops : List Micro) : (s.setInflight ops).duty = s.duty := rfl
@[simp] theorem State.setInflight_sr (s : State) (ops : List Micro) : (s.setInflight ops).sr = s.sr := rfl
@[simp] theorem State.setInflight_out (s : State) (ops : List Micro) : (s.setInflight ops).out = s.out := rfl
@[simp] theorem State.setInflight_trace (s : State) (ops : List Micro) : (s.setInflight ops).trace = s.trace := rfl
@[simp] theorem State.setInflight_pending (s : State) (ops : List Micro) : (s.setInflight ops).pending = s.pending := rfl
@[simp] theorem State.setInflight_inflight (s : State) (ops : List Micro) : (s.setInflight ops).inflight = ops := rfl
@[simp] theorem State.setInflight_draws (s : State) (ops : List Micro) : (s.setInflight ops).draws = s.draws := rfl

/-! ### `drawn` -/

@[simp] theorem State.drawn_board (s : State) : s.drawn.board = s.board := rfl
@[simp] theorem State.drawn_reg (s : State) : s.drawn.reg = s.reg := rfl
@[simp] theorem State.drawn_phase (s : State) : s.drawn.phase = s.phase := rfl
@[simp] theorem State.drawn_busy (s : State) : s.drawn.busy = s.busy := rfl
@[simp] theorem State.drawn_seq (s : State) : s.drawn.seq = s.seq := rfl
@[simp] theorem State.drawn_pins (s : State) : s.drawn.pins = s.pins := rfl
@[simp] theorem State.drawn_duty (s : State) : s.drawn.duty = s.duty := rfl
@[simp] theorem State.drawn_sr (s : State) : s.drawn.sr = s.sr := rfl
@[simp] theorem State.drawn_out (s : State) : s.drawn.out = s.out := rfl
@[simp] theorem State.drawn_trace (s : State) : s.drawn.trace = s.trace := rfl
@[simp] theorem State.drawn_pending (s : State) : s.drawn.pending = s.pending := rfl
@[simp] theorem State.drawn_inflight (s : State) : s.drawn.inflight = s.inflight := rfl
@[simp] theorem State.drawn_draws (s : State) : s.drawn.draws = s.draws + 1 := rfl

end Machine
end Sys2Proof
end

