-- ==== Sys2Proof/Laws/Ops.lean ====
section
/-! SUPPORT. What each shared operation can do, said once: the primitives, the numbered pin writes, a whole
transmission, running, resuming and accepting a command. Proofs about commands cite these and unfold none of them. -/

namespace Sys2Proof.Machine

/-! ### Sequencing -/

@[simp] theorem andThen_next (s : State) (f : State → Result) : andThen (.next s) f = f s := rfl

@[simp] theorem andThen_fault (e : Fault) (f : State → Result) : andThen (.fault e) f = .fault e := rfl

@[simp] theorem andThen_refused (e : Refusal) (f : State → Result) : andThen (.refused e) f = .refused e := rfl

theorem andThen_eq_next {r : Result} {f : State → Result} {t : State} :
    andThen r f = .next t ↔ ∃ s, r = .next s ∧ f s = .next t := by
  cases r <;> simp [andThen]

theorem andThen_assoc (r : Result) (f g : State → Result) :
    andThen (andThen r f) g = andThen r fun s => andThen (f s) g := by
  cases r <;> rfl

theorem andThen_same (r : Result) : andThen r .next = r := by
  cases r <;> rfl

/-! ### Primitives -/

/-- The device's reaction touches `SR`, `OUT` and the free-value counter only (R38). -/
theorem env_frame (old : PinState) (p : Pin) (l : Level) (s : State) :
    ∃ sr out draws, env old p l s = { s with sr := sr, out := out, draws := draws } := by
  unfold env
  cases p <;> try exact ⟨s.sr, s.out, s.draws, rfl⟩
  · cases risingEdge old l
    · exact ⟨s.sr, s.out, s.draws, rfl⟩
    · exact ⟨s.sr, s.sr.toByte, s.draws, rfl⟩
  · cases risingEdge old l
    · exact ⟨s.sr, s.out, s.draws, rfl⟩
    · cases h : s.pins.data with
      | z => exact ⟨shiftIn s.sr (Config.draw s.draws), s.out, s.draws + 1, by simp [shiftStage, h]; rfl⟩
      | driven b => exact ⟨shiftIn s.sr b, s.out, s.draws, by simp [shiftStage, h]; rfl⟩

/-- A pin write either meets a pin in state `Z`, or emits one event, drives one pin and lets the device react (R19). -/
theorem pinWrite_cases (p : Pin) (l : Level) (s : State) :
    (s.pins.get p = .z ∧ pinWrite p l s = .fault (.pinNotDriven p)) ∨
    (s.pins.get p ≠ .z ∧ ∃ sr out draws, pinWrite p l s = .next { s with
      sr := sr, out := out, draws := draws, trace := s.trace ++ [.write p l], pins := s.pins.set p (.driven l) }) := by
  unfold pinWrite
  cases h : s.pins.get p with
  | z => exact .inl ⟨rfl, rfl⟩
  | driven old =>
    obtain ⟨sr, out, draws, e⟩ := env_frame (.driven old) p l ((s.emit (.write p l)).setPin p (.driven l))
    exact .inr ⟨by simp, sr, out, draws, by simp only [e]; rfl⟩

theorem pinWrite_next {p : Pin} {l : Level} {s t : State} (h : pinWrite p l s = .next t) :
    ∃ sr out draws, t = { s with
      sr := sr, out := out, draws := draws, trace := s.trace ++ [.write p l], pins := s.pins.set p (.driven l) } := by
  rcases pinWrite_cases p l s with ⟨-, e⟩ | ⟨-, sr, out, draws, e⟩
  · simp [e] at h
  · rw [e] at h
    exact ⟨sr, out, draws, by injection h with h; exact h.symm⟩

/-- The configuration of a pin emits one event; it may drive that pin and take one drawn level (R18). -/
theorem pinConfig_cases (p : Pin) (s : State) :
    ∃ pins draws, pinConfig p s = { s with trace := s.trace ++ [.cfg p], pins := pins, draws := draws } := by
  unfold pinConfig
  split
  · cases p
    · exact ⟨s.pins.set .latch (.driven false), s.draws, rfl⟩
    · exact ⟨s.pins.set .data (.driven false), s.draws, rfl⟩
    · exact ⟨s.pins.set .clock (.driven false), s.draws, rfl⟩
    · exact ⟨s.pins.set .enableN (.driven (Config.draw s.draws)), s.draws + 1, rfl⟩
  · exact ⟨s.pins, s.draws, rfl⟩

/-- A numbered write of `Transmit()` writes `LATCH`, `DATA` or `CLOCK` and moves `SEQ` (R15, R70). -/
theorem frameWriteAt_pin {r : Byte} {k : Nat} {p : Pin} {l : Level} (h : frameWriteAt r k = some (p, l)) :
    p ≠ .enableN := by
  unfold frameWriteAt at h
  rintro rfl
  split at h
  · simp at h
  · split at h
    · split at h
      · simp at h
      · split at h <;> simp at h
    · split at h <;> simp at h

theorem frameWrite_next {s t : State} (h : frameWrite s = .next t) :
    ∃ p l sr out draws, p ≠ .enableN ∧ frameWriteAt s.reg s.seq.toNat = some (p, l) ∧ t = { s with
      sr := sr, out := out, draws := draws, trace := s.trace ++ [.write p l], pins := s.pins.set p (.driven l),
      seq := nextSeq s.seq } := by
  unfold frameWrite at h
  split at h
  · simp at h
  · next p l e =>
    obtain ⟨u, hu, ht⟩ := andThen_eq_next.1 h
    obtain ⟨sr, out, draws, rfl⟩ := pinWrite_next hu
    refine ⟨p, l, sr, out, draws, frameWriteAt_pin e, e, ?_⟩
    injection ht with ht
    exact ht.symm

/-- A line of a command leaves the board, `BUSY`, the port and the lines to come as they are. -/
theorem perform_frame {op : Micro} {s t : State} (h : perform op s = .next t) :
    t.board = s.board ∧ t.busy = s.busy ∧ t.pending = s.pending ∧ t.inflight = s.inflight := by
  cases op with
  | pinConfig p =>
    obtain ⟨pins, draws, e⟩ := pinConfig_cases p s
    simp only [perform, e, Host.Outcome.next.injEq] at h
    subst h
    exact ⟨rfl, rfl, rfl, rfl⟩
  | frameWrite =>
    obtain ⟨p, l, sr, out, draws, -, -, rfl⟩ := frameWrite_next h
    exact ⟨rfl, rfl, rfl, rfl⟩
  | pinWrite p l =>
    obtain ⟨sr, out, draws, rfl⟩ := pinWrite_next h
    exact ⟨rfl, rfl, rfl, rfl⟩
  | pwmConfig t => cases h; exact ⟨rfl, rfl, rfl, rfl⟩
  | clearReg => cases h; exact ⟨rfl, rfl, rfl, rfl⟩
  | setBit i v => cases h; exact ⟨rfl, rfl, rfl, rfl⟩
  | beginFrame => cases h; exact ⟨rfl, rfl, rfl, rfl⟩
  | pwmWrite t d => cases h; exact ⟨rfl, rfl, rfl, rfl⟩
  | setReady => cases h; exact ⟨rfl, rfl, rfl, rfl⟩

/-- No line of a command is ever refused: a refusal is made before acceptance (R93). -/
theorem perform_not_refused (op : Micro) (s : State) (e : Refusal) : perform op s ≠ .refused e := by
  cases op with
  | frameWrite =>
    simp only [perform, frameWrite]
    split
    · simp
    · next p l _ =>
      rcases pinWrite_cases p l s with ⟨-, e⟩ | ⟨-, sr, out, draws, e⟩ <;> simp [e]
  | pinWrite p l =>
    rcases pinWrite_cases p l s with ⟨-, e⟩ | ⟨-, sr, out, draws, e⟩ <;> simp [perform, e]
  | _ => simp [perform]

/-! ### Running lines -/

@[simp] theorem runLines_nil (s : State) : runLines [] s = .next ((s.setInflight []).setBusy false) := rfl

theorem runLines_cons (op : Micro) (rest : List Micro) (s : State) :
    runLines (op :: rest) s = andThen (perform op (s.setInflight rest)) (runLines rest) := rfl

/-- The lines run do not depend on what the state says is to come. -/
@[simp] theorem runLines_setInflight (ops later : List Micro) (s : State) :
    runLines ops (s.setInflight later) = runLines ops s := by
  cases ops <;> rfl

/-- An induction over the lines of a command: what every line keeps, and the end of the command, holds at the end. -/
theorem runLines_induct {P : List Micro → State → Prop} {Q : State → Prop} {ops : List Micro} {s t : State}
    (h : runLines ops s = .next t) (start : P ops s)
    (line : ∀ op rest u v, P (op :: rest) u → perform op (u.setInflight rest) = .next v → P rest v)
    (done : ∀ u, P [] u → Q ((u.setInflight []).setBusy false)) : Q t := by
  induction ops generalizing s with
  | nil =>
    simp only [runLines_nil, Host.Outcome.next.injEq] at h
    exact h ▸ done s start
  | cons op rest ih =>
    obtain ⟨u, hu, ht⟩ := andThen_eq_next.1 h
    exact ih ht (line op rest s u start hu)

/-- A command that has run to its end leaves the block idle, on the same board, with the same words presented. -/
theorem runLines_frame {ops : List Micro} {s t : State} (h : runLines ops s = .next t) :
    t.busy = false ∧ t.inflight = [] ∧ t.board = s.board ∧ t.pending = s.pending := by
  refine runLines_induct (P := fun _ u => u.board = s.board ∧ u.pending = s.pending)
    (Q := fun t => t.busy = false ∧ t.inflight = [] ∧ t.board = s.board ∧ t.pending = s.pending) h ⟨rfl, rfl⟩ ?_ ?_
  · intro op rest u v hu hv
    obtain ⟨h1, -, h3, -⟩ := perform_frame hv
    exact ⟨h1.trans hu.1, h3.trans hu.2⟩
  · intro u hu
    exact ⟨rfl, rfl, hu.1, hu.2⟩

theorem runLines_not_refused (ops : List Micro) (s : State) (e : Refusal) : runLines ops s ≠ .refused e := by
  induction ops generalizing s with
  | nil => simp
  | cons op rest ih =>
    rw [runLines_cons]
    cases h : perform op (s.setInflight rest) with
    | next t => simpa using ih t
    | fault f => simp
    | refused f => exact absurd h (perform_not_refused _ _ _)

/-- The three writes of bit cell `j` (R33, R70): the bit `REG[7 - j]` is on `DATA` and has entered the shift stage. -/
theorem runLines_cell (j : Nat) (hj : j < 8) (rest : List Micro) (s : State) (hseq : s.seq = BitVec.ofNat 5 (1 + 3 * j))
    (hd : s.pins.data ≠ .z) (hc : s.pins.clock = .driven false) :
    runLines (.frameWrite :: .frameWrite :: .frameWrite :: rest) s = runLines rest { s with
      seq := BitVec.ofNat 5 (1 + 3 * (j + 1))
      pins := { s.pins with data := .driven (s.reg.getLsbD (7 - j)), clock := .driven false }
      sr := shiftIn s.sr (s.reg.getLsbD (7 - j))
      trace := s.trace ++ cellEvents (s.reg.getLsbD (7 - j)) } := by
  obtain ⟨board, reg, phase, busy, seq, ⟨l, d, c, e⟩, duty, sr, out, trace, pending, inflight, draws⟩ := s
  simp only at hseq hd hc
  subst hseq hc
  cases d with
  | z => exact absurd rfl hd
  | driven d =>
  have h1 : frameWriteAt reg (BitVec.ofNat 5 (1 + 3 * j)).toNat = some (.data, reg.getLsbD (7 - j)) := by
    interval_cases j <;> rfl
  have h2 : frameWriteAt reg (BitVec.ofNat 5 (2 + 3 * j)).toNat = some (.clock, true) := by
    interval_cases j <;> rfl
  have h3 : frameWriteAt reg (BitVec.ofNat 5 (3 + 3 * j)).toNat = some (.clock, false) := by
    interval_cases j <;> rfl
  have n1 : nextSeq (BitVec.ofNat 5 (1 + 3 * j)) = BitVec.ofNat 5 (2 + 3 * j) := by interval_cases j <;> rfl
  have n2 : nextSeq (BitVec.ofNat 5 (2 + 3 * j)) = BitVec.ofNat 5 (3 + 3 * j) := by interval_cases j <;> rfl
  have n3 : nextSeq (BitVec.ofNat 5 (3 + 3 * j)) = BitVec.ofNat 5 (1 + 3 * (j + 1)) := by interval_cases j <;> rfl
  rw [← runLines_setInflight rest rest { board := board, .. }]
  simp [-BitVec.toNat_ofNat, runLines_cons, perform, frameWrite, h1, h2, h3, n1, n2, n3, pinWrite, Pins.get, Pins.set, env, risingEdge,
    shiftStage, cellEvents, State.setInflight, State.emit, State.setPin, State.setSeq, State.setSr]

/-- The opening of a frame: `SEQ <- 0` and the write numbered 0 (R70). -/
theorem runLines_frameStart (rest : List Micro) (s : State) (hl : s.pins.latch ≠ .z) :
    runLines (.beginFrame :: .frameWrite :: rest) s = runLines rest { s with
      seq := 1#5
      pins := { s.pins with latch := .driven false }
      trace := s.trace ++ [.write .latch false] } := by
  obtain ⟨board, reg, phase, busy, seq, ⟨l, d, c, e⟩, duty, sr, out, trace, pending, inflight, draws⟩ := s
  cases l with
  | z => exact absurd rfl hl
  | driven l =>
  have h0 : frameWriteAt reg 0 = some (.latch, false) := rfl
  have n0 : nextSeq 0#5 = 1#5 := rfl
  rw [← runLines_setInflight rest rest { board := board, .. }]
  simp [runLines_cons, perform, frameWrite, h0, n0, pinWrite, Pins.get, Pins.set, env, risingEdge,
    State.setInflight, State.emit, State.setPin, State.setSeq]

/-- The closing of a frame: the write numbered 25 copies the shift stage to the outputs (R40, R70). -/
theorem runLines_frameEnd (rest : List Micro) (s : State) (hseq : s.seq = 25#5) (hl : s.pins.latch = .driven false) :
    runLines (.frameWrite :: rest) s = runLines rest { s with
      seq := 31#5
      pins := { s.pins with latch := .driven true }
      out := s.sr.toByte
      trace := s.trace ++ [.write .latch true] } := by
  obtain ⟨board, reg, phase, busy, seq, ⟨l, d, c, e⟩, duty, sr, out, trace, pending, inflight, draws⟩ := s
  simp only at hseq hl
  subst hseq hl
  have h25 : frameWriteAt reg 25 = some (.latch, true) := rfl
  have n25 : nextSeq 25#5 = 31#5 := rfl
  rw [← runLines_setInflight rest rest { board := board, .. }]
  simp [runLines_cons, perform, frameWrite, h25, n25, pinWrite, Pins.get, Pins.set, env, risingEdge,
    State.setInflight, State.emit, State.setPin, State.setSeq, State.setOut]

/-- A whole transmission (R70), from any state that meets its precondition and whatever `SR`, `OUT` and `SEQ` hold: the
26 writes are emitted, the pins and `SEQ` end as in R74 and `SR = OUT = REG` (R42); nothing else changes. -/
theorem runLines_transmit (rest : List Micro) (s : State) (h : s.frameReady) :
    runLines (transmitLines ++ rest) s = runLines rest { s with
      seq := 31#5
      pins := { s.pins with latch := .driven true, data := .driven (s.reg.getLsbD 0), clock := .driven false }
      sr := Stage.ofByte s.reg
      out := s.reg
      trace := s.trace ++ frameEvents s.reg } := by
  obtain ⟨hl, hd, -, hc⟩ := h
  have lines : transmitLines ++ rest =
      .beginFrame :: .frameWrite :: (List.replicate 24 .frameWrite ++ .frameWrite :: rest) := rfl
  rw [lines, runLines_frameStart _ _ hl]
  simp only [List.replicate, List.cons_append, List.nil_append]
  rw [runLines_cell 0 (by decide) _ _ rfl (by exact hd) (by exact hc), runLines_cell 1 (by decide) _ _ rfl (by simp) rfl,
    runLines_cell 2 (by decide) _ _ rfl (by simp) rfl, runLines_cell 3 (by decide) _ _ rfl (by simp) rfl,
    runLines_cell 4 (by decide) _ _ rfl (by simp) rfl, runLines_cell 5 (by decide) _ _ rfl (by simp) rfl,
    runLines_cell 6 (by decide) _ _ rfl (by simp) rfl, runLines_cell 7 (by decide) _ _ rfl (by simp) rfl,
    runLines_frameEnd _ _ rfl rfl]
  have stage (v : Stage) : shiftIn (shiftIn (shiftIn (shiftIn (shiftIn (shiftIn (shiftIn (shiftIn v
      (s.reg.getLsbD 7)) (s.reg.getLsbD 6)) (s.reg.getLsbD 5)) (s.reg.getLsbD 4)) (s.reg.getLsbD 3))
      (s.reg.getLsbD 2)) (s.reg.getLsbD 1)) (s.reg.getLsbD 0) = Stage.ofByte s.reg := rfl
  simp only [Nat.sub_zero, Nat.reduceSub, stage, Stage.toByte_ofByte]
  simp only [frameEvents, frameLevels, List.flatMap_cons, List.flatMap_nil, List.append_assoc,
    List.append_nil]

/-- A numbered pin write touches `LATCH`, `DATA` or `CLOCK`, `SEQ`, the device and the trace, and nothing else. -/
theorem frameWrite_frame {s t : State} (h : frameWrite s = .next t) :
    t.reg = s.reg ∧ t.phase = s.phase ∧ t.duty = s.duty ∧ t.pins.enableN = s.pins.enableN ∧
    ∃ p l, p ≠ .enableN ∧ t.trace = s.trace ++ [.write p l] := by
  obtain ⟨p, l, sr, out, draws, hp, -, rfl⟩ := frameWrite_next h
  refine ⟨rfl, rfl, rfl, ?_, p, l, hp, rfl⟩
  cases p <;> first | rfl | exact absurd rfl hp

/-- What a transmission leaves alone, from every state from which it completes, whatever its pins. -/
theorem runLines_transmit_frame {rest : List Micro} {s t : State} (h : runLines (transmitLines ++ rest) s = .next t) :
    ∃ u, runLines rest u = .next t ∧ u.board = s.board ∧ u.reg = s.reg ∧ u.phase = s.phase ∧ u.duty = s.duty ∧
      u.pins.enableN = s.pins.enableN ∧
      ∃ events, u.trace = s.trace ++ events ∧ ∀ l, Event.write .enableN l ∉ events := by
  have writes (n : Nat) (v : State) (hv : runLines (List.replicate n .frameWrite ++ rest) v = .next t) :
      ∃ u, runLines rest u = .next t ∧ u.board = v.board ∧ u.reg = v.reg ∧ u.phase = v.phase ∧ u.duty = v.duty ∧
        u.pins.enableN = v.pins.enableN ∧
        ∃ events, u.trace = v.trace ++ events ∧ ∀ l, Event.write .enableN l ∉ events := by
    induction n generalizing v with
    | zero => exact ⟨v, hv, rfl, rfl, rfl, rfl, rfl, [], by simp, by simp⟩
    | succ n ih =>
      obtain ⟨w, hw, hrest⟩ := andThen_eq_next.1 hv
      obtain ⟨hr, hph, hdu, he, p, l, hp, ht⟩ := frameWrite_frame hw
      obtain ⟨hb, -⟩ := perform_frame hw
      obtain ⟨u, hu, ub, ur, uph, udu, ue, events, ut, no⟩ := ih w hrest
      refine ⟨u, hu, ub.trans hb, ur.trans hr, uph.trans hph, udu.trans hdu, ue.trans he, .write p l :: events, ?_, ?_⟩
      · rw [ut, ht]; simp
      · intro l'
        simp only [List.mem_cons, Event.write.injEq, not_or, not_and]
        exact ⟨fun e => absurd e.symm hp, no l'⟩
  have lines : transmitLines ++ rest = .beginFrame :: (List.replicate 26 .frameWrite ++ rest) := rfl
  rw [lines, runLines_cons, perform, andThen_next] at h
  have := writes 26 _ h
  exact this

/-- A pin after its configuration, where `l` is the level an undriven one takes (R18). -/
def configured (l : Level) : PinState → PinState
  | .z => .driven l
  | .driven b => .driven b

theorem configured_driven (l : Level) (p : PinState) : ∃ b, configured l p = .driven b := by
  cases p with
  | z => exact ⟨l, rfl⟩
  | driven b => exact ⟨b, rfl⟩

theorem configured_low {p : PinState} (h : p ≠ .driven true) : configured false p = .driven false := by
  cases p with
  | z => rfl
  | driven b => cases b <;> simp_all [configured]

/-- The configuration of every pin (R18, R80): an undriven pin takes its level, the drawn one for `ENABLE_N`, and a driven
pin keeps its own. -/
theorem runLines_config (rest : List Micro) (s : State) : ∃ draws : Nat,
    runLines (configLines ++ rest) s = runLines rest { s with
      pins :=
        { latch := configured false s.pins.latch
          data := configured false s.pins.data
          clock := configured false s.pins.clock
          enableN := configured (Config.draw s.draws) s.pins.enableN }
      draws := draws
      trace := s.trace ++ configEvents } := by
  obtain ⟨board, reg, phase, busy, seq, ⟨l, d, c, e⟩, duty, sr, out, trace, pending, inflight, draws⟩ := s
  refine ⟨if e = .z then draws + 1 else draws, ?_⟩
  rw [← runLines_setInflight rest rest { board := board, .. }]
  cases l <;> cases d <;> cases c <;> cases e <;>
    simp only [configLines, List.cons_append, List.nil_append, runLines_cons, perform, andThen_next, pinConfig, pwmConfig,
      Pins.get, reduceCtorEq, if_true, if_false, configLevel, State.setPin, State.emit, State.setInflight, Pins.set,
      State.drawn, configEvents, Slot.all, List.map, List.append_assoc, configured]

/-! ### Line by line -/

theorem advanceBy_succ (n : Nat) (s : State) : advanceBy (n + 1) s = andThen (advance s) (advanceBy n) := rfl

theorem advanceBy_add (m n : Nat) (s : State) : advanceBy (m + n) s = andThen (advanceBy m s) (advanceBy n) := by
  induction m generalizing s with
  | zero => simp [advanceBy]
  | succ m ih =>
    rw [Nat.succ_add, advanceBy_succ, advanceBy_succ, andThen_assoc]
    congr 1
    funext t
    exact ih t

/-- Going line by line through all that is still to do, and once more to complete, is running it (R94, D14). -/
theorem advanceBy_inflight (s : State) : advanceBy (s.inflight.length + 1) s = runLines s.inflight s := by
  generalize h : s.inflight = ops
  induction ops generalizing s with
  | nil =>
    rw [← runLines_setInflight [] []]
    simp [advanceBy, advance, h, State.setInflight, State.setBusy]
  | cons op rest ih =>
    rw [List.length_cons, advanceBy_succ, runLines_cons, advance, h]
    dsimp only
    cases hp : perform op (s.setInflight rest) with
    | next t => exact ih t (perform_frame hp).2.2.2
    | fault e => rfl
    | refused e => rfl

/-! ### Resuming, accepting, issuing -/

theorem settle_idle {s : State} (h : s.busy = false) : settle s = .next s := by
  simp [settle, h]

@[simp] theorem settle_accept (lines : List Micro) (s : State) :
    settle (accept lines s) = runLines lines (s.setBusy true) := by
  simp only [settle, accept]
  exact runLines_setInflight lines lines (s.setBusy true)

theorem settle_next {s t : State} (h : settle s = .next t) :
    t.busy = false ∧ t.board = s.board ∧ t.pending = s.pending := by
  unfold settle at h
  split at h
  · obtain ⟨h1, -, h3, h4⟩ := runLines_frame h
    exact ⟨h1, h3, h4⟩
  · next hb =>
    injection h with h
    subst h
    exact ⟨by simpa using hb, rfl, rfl⟩

/-- A command presented to an idle block and not refused runs from acceptance to its end (R67, R94). -/
theorem issue_idle {refusal : State → Option Refusal} {lines : State → List Micro} {s : State}
    (hb : s.busy = false) (hr : refusal s = none) :
    issue refusal lines s = runLines (lines s) (s.setBusy true) := by
  simp [issue, settle_idle hb, hr]

/-- A command refused by an idle block ends there, with no next state (R93). -/
theorem issue_refused {refusal : State → Option Refusal} {lines : State → List Micro} {s : State} {e : Refusal}
    (hb : s.busy = false) (hr : refusal s = some e) : issue refusal lines s = .refused e := by
  simp [issue, settle_idle hb, hr]

/-- Everything a command that answers a next state has done: settled, not refused, run to its end. -/
theorem issue_next {refusal : State → Option Refusal} {lines : State → List Micro} {s t : State}
    (h : issue refusal lines s = .next t) :
    ∃ u, settle s = .next u ∧ refusal u = none ∧ runLines (lines u) (u.setBusy true) = .next t := by
  obtain ⟨u, hu, ht⟩ := andThen_eq_next.1 h
  refine ⟨u, hu, ?_⟩
  split at ht
  · simp at ht
  · next hr => exact ⟨hr, by simpa using ht⟩

@[simp] theorem needsReady_eq_none {s : State} : needsReady s = none ↔ s.phase = .ready := by
  unfold needsReady
  split <;> simp [*]

theorem needsReady_off {s : State} (h : s.phase = .off) : needsReady s = some .notConstructed := by
  simp [needsReady, h]

end Sys2Proof.Machine
end

