-- ==== Sys2Proof/Laws/PerInstr.lean ====
section
/-! SUPPORT. Per command: its word carries the opcode of its row of spec/opcode_table.json (R60). -/

namespace Sys2Proof.Laws.RowMatch

/-- The "match" of the command's row; the "mask" is 0xF0000 in every row. -/
def rowMatch : Instr → Word
  | .new _ => 0x00000#20
  | .setDir _ _ => 0x10000#20
  | .setSpeed _ _ => 0x20000#20
  | .regInit => 0x80000#20
  | .setPair _ _ _ _ => 0x90000#20

/-- The word of the command, under the mask of its row, is the row's match. -/
def Statement (i : Instr) : Prop := encode i &&& 0xF0000#20 = rowMatch i

/-- Under the mask of the rows a word keeps its first four bits and nothing of the rest. -/
theorem mask_append (op : BitVec 4) (payload : BitVec 16) :
    (op ++ payload) &&& 0xF0000#20 = op ++ 0#16 := by
  have mask : 0xF0000#20 = 0xF#4 ++ 0#16 := rfl
  rw [mask, BitVec.and_append, BitVec.and_zero]
  congr 1
  exact BitVec.and_allOnes

theorem new (maxspeed : Bool) : Statement (.new maxspeed) := by
  cases maxspeed <;> rfl

theorem setDir (motor : Byte) (dir : Direction) : Statement (.setDir motor dir) := by
  revert motor
  cases dir <;> unfold Statement <;> decide

theorem setSpeed (motor speed : Byte) : Statement (.setSpeed motor speed) := by
  have split : encode (.setSpeed motor speed) = 0x2#4 ++ (motor ++ speed) := by
    simp only [encode, BitVec.append_assoc]; rfl
  rw [Statement, split, mask_append]
  rfl

theorem regInit : Statement .regInit := rfl

theorem setPair (bitA : Pos) (valueA : Bool) (bitB : Pos) (valueB : Bool) :
    Statement (.setPair bitA valueA bitB valueB) := by
  revert bitA bitB
  cases valueA <;> cases valueB <;> unfold Statement <;> decide

end Sys2Proof.Laws.RowMatch
end

