-- ==== Sys2Proof/Tests/Slice0.lean ====
section
/-! SUPPORT. Tests with expected results from 95_test_vectors.md and 30_encoding.md, and for every obligation with
hypotheses a concrete state and operands that meet them. The boards are the test instances REF-A and REF-B of
30_encoding.md section 4; no claim rests on their numbers. -/

namespace Sys2Proof.Tests

open Sys2Proof.Machine

/-! ### Test instances and states -/

def refRow : Quad BitPair :=
  { one := { bitA := 2, bitB := 3 }, two := { bitA := 1, bitB := 4 }, three := { bitA := 5, bitB := 7 },
    four := { bitA := 0, bitB := 6 } }

def refA : Board :=
  { variant := .A, pairTable := Table.ofRow refRow, pwmTable := Table.ofRow { one := 1, two := 2, three := 3, four := 4 },
    pinMap := { latch := 0, data := 1, clock := 2, enableN := 3 } }

def refB : Board :=
  { variant := .B, pairTable := Table.ofRow refRow, pwmTable := Table.ofRow { one := 1, two := 2, three := 3, four := 4 },
    pinMap := { latch := 0, data := 1, clock := 2, enableN := 3 } }

/-- An idle constructed block with `r` in `REG` and the four duties 10, 20, 30, 40. -/
def ready (b : Board) (r : Byte) : State :=
  { board := b, reg := r, phase := .ready, busy := false, seq := 31#5,
    pins := { latch := .driven true, data := .driven (r.getLsbD 0), clock := .driven false, enableN := .driven false },
    duty := { one := 10#8, two := 20#8, three := 30#8, four := 40#8 }, sr := Stage.ofByte r, out := r, trace := [],
    pending := [], inflight := [], draws := 0 }

/-- A block at power-on, on board REF-A, with bytes where the spec leaves any. -/
def off : State :=
  { ready refA 0x5A#8 with
    phase := .off, pins := { latch := .z, data := .z, clock := .z, enableN := .z }, out := 0xC3#8 }

/-- The block three lines into the `SETDIR 1, Forward` it has accepted. -/
def midway : State :=
  { ready refA 0x04#8 with
    busy := true, seq := 0#5, inflight := List.replicate 26 .frameWrite, out := 0x00#8, sr := Stage.ofByte 0x00#8 }

/-- The result is a next state of which `f` holds. -/
def after (r : Result) (f : State → Bool) : Bool :=
  match r with
  | .next t => f t
  | .fault _ => false
  | .refused _ => false

/-- The result is a refusal with this reason. -/
def refusedFor (r : Result) (reason : Refusal) : Bool :=
  match r with
  | .next _ => false
  | .fault _ => false
  | .refused e => decide (e = reason)

theorem next_of_after {r : Result} {f : State → Bool} (h : after r f = true) : ∃ t, r = .next t ∧ f t = true := by
  cases r with
  | next t => exact ⟨t, rfl, h⟩
  | fault e => exact absurd h Bool.false_ne_true
  | refused e => exact absurd h Bool.false_ne_true

theorem ready_inv (b : Board) (r : Byte) : (ready b r).Inv :=
  ⟨rfl, rfl, rfl, nofun, fun _ => rfl, fun _ => ⟨rfl, rfl⟩⟩

theorem off_inv : off.Inv := ⟨rfl, rfl, rfl, fun _ => rfl, nofun, nofun⟩

/-! ### WellFormed: its one check, and a term that fails it (R66(b)) -/

theorem test_wellFormed_refuses_equal_positions : (Instr.setPair 4 true 4 false).wellFormed = false := by decide

theorem test_wellFormed_accepts_different_positions : (Instr.setPair 7 true 0 true).wellFormed = true := by decide

/-! ### Decoding: words written field by field from R61 to R65 -/

/-- opcode 0000, 15 reserved bits, maxspeed 1 (R61). -/
theorem test_decode_new : decode 0b0000_000000000000000_1#20 = .ok (.new true) := by decide

/-- opcode 0001, motor 6, six reserved bits set, dir 10 (R62). -/
theorem test_decode_setDir : decode 0b0001_00000110_111111_10#20 = .ok (.setDir 6#8 .backward) := by decide

/-- opcode 0010, motor 4, speed 200 (R63). -/
theorem test_decode_setSpeed : decode 0b0010_00000100_11001000#20 = .ok (.setSpeed 4#8 200#8) := by decide

/-- opcode 1000, sixteen reserved bits set (R64). -/
theorem test_decode_regInit : decode 0b1000_1111111111111111#20 = .ok .regInit := by decide

/-- opcode 1001, eight reserved bits, valueB 1, bitB 000, valueA 0, bitA 111 (R65). -/
theorem test_decode_setPair : decode 0b1001_00000000_1_000_0_111#20 = .ok (.setPair 7 false 0 true) := by decide

/-- The last opcode below and the first above each reserved range, and the ranges' ends (R66(a)). -/
theorem test_decode_reserved :
    decode 0x30000#20 = .error (.reservedOpcode 0x3#4) ∧ decode 0x7ABCD#20 = .error (.reservedOpcode 0x7#4) ∧
    decode 0xA0000#20 = .error (.reservedOpcode 0xA#4) ∧ decode 0xFFFFF#20 = .error (.reservedOpcode 0xF#4) := by
  decide

/-- Words of 95_test_vectors.md section 2.1. -/
theorem test_encode :
    encode (.setDir 2#8 .backward) = 0x10202#20 ∧ encode (.setSpeed 4#8 255#8) = 0x204FF#20 ∧
    encode (.setPair 7 true 0 true) = 0x9008F#20 ∧ encode (.setPair 3 true 2 true) = 0x900AB#20 := by
  decide

theorem test_decodeTableWord : decodeTableWord 20 0x10003 = some (.setDir 0#8 .brake) ∧ decodeTableWord 20 0x30000 = none := by
  decide

/-! ### NEW -/

/-- V-N2. -/
theorem test_new_maxspeed :
    after (exec (.new true) off) (fun t =>
      decide (t.trace = [.cfg .latch, .cfg .clock, .cfg .data, .cfg .enableN, .cfgPwm .one, .cfgPwm .two, .cfgPwm .three,
        .cfgPwm .four] ++ frameEvents 0x00#8 ++ [.write .enableN false, .pwm .one 255#8, .pwm .two 255#8,
        .pwm .three 255#8, .pwm .four 255#8]) &&
      decide (t.reg = 0x00#8) && decide (t.out = 0x00#8) && decide (t.phase = .ready) &&
      decide (t.duty = { one := 255#8, two := 255#8, three := 255#8, four := 255#8 })) = true := by
  decide

/-- V-N3. -/
theorem test_new_again :
    after (exec (.new false) (ready refA 0x27#8)) (fun t =>
      decide (t.trace.length = 35) && decide (t.reg = 0x00#8) && decide (t.out = 0x00#8) &&
      decide (t.duty = { one := 10#8, two := 20#8, three := 30#8, four := 40#8 }) &&
      decide (t.pins.enableN = .driven false)) = true := by
  decide

/-! ### SETDIR -/

/-- V-D4: bit 5 stays 1, bit 7 cleared, all others kept. -/
theorem test_setDir_keeps_other_slots :
    after (exec (.setDir 3#8 .forward) (ready refA 0xFF#8)) (fun t =>
      decide (t.reg = 0x7F#8) && decide (t.out = 0x7F#8) && decide (t.trace = frameEvents 0x7F#8)) = true := by
  decide

/-- V-D5 and V-D8: index 0 is slot 4; slot 3 under the other variant. -/
theorem test_setDir_alias_and_variant :
    after (exec (.setDir 0#8 .brake) (ready refA 0x00#8)) (fun t => decide (t.reg = 0x41#8)) = true ∧
    after (exec (.setDir 3#8 .brake) (ready refB 0x00#8)) (fun t => decide (t.reg = 0x41#8)) = true := by
  decide

/-! ### SETSPEED -/

/-- V-S2: the direction stays. -/
theorem test_setSpeed_zero :
    after (exec (.setSpeed 1#8 0#8) (ready refA 0x04#8)) (fun t =>
      decide (t.trace = [.pwm .one 0#8]) && decide (t.reg = 0x04#8) &&
      decide (t.duty = { one := 0#8, two := 20#8, three := 30#8, four := 40#8 })) = true := by
  decide

/-- V-S3 and V-S5. -/
theorem test_setSpeed_alias_and_refusal :
    after (exec (.setSpeed 6#8 200#8) (ready refA 0x04#8)) (fun t => decide (t.trace = [.pwm .two 200#8])) = true ∧
    refusedFor (exec (.setSpeed 1#8 128#8) off) .notConstructed = true := by
  decide

/-! ### REGINIT -/

/-- V-R1. -/
theorem test_regInit :
    after (exec .regInit (ready refA 0xA5#8)) (fun t =>
      decide (t.reg = 0x00#8) && decide (t.out = 0x00#8) && decide (t.trace = frameEvents 0x00#8)) = true := by
  decide

/-- V-R3. -/
theorem test_regInit_off : refusedFor (exec .regInit off) .notConstructed = true := by decide

/-! ### SETPAIR -/

/-- V-P3: highest and lowest position, bit 2 kept; the frame most significant bit first. -/
theorem test_setPair :
    after (exec (.setPair 7 true 0 true) (ready refA 0x04#8)) (fun t =>
      decide (t.reg = 0x85#8) && decide (t.out = 0x85#8) && decide (t.pins.data = .driven true) &&
      decide (t.trace.filterMap Event.dataLevel = [true, false, false, false, false, true, false, true])) = true := by
  decide

/-- V-P10 and V-P12: equal positions are refused; the phase is checked first. -/
theorem test_setPair_same_bit :
    refusedFor (exec (.setPair 4 true 4 true) (ready refA 0x00#8)) .sameBit = true ∧
    refusedFor (exec (.setPair 2 true 2 false) off) .notConstructed = true := by
  decide

/-! ### The machine -/

/-- A presented word runs from reset: `NEW 0` as the first command (95_test_vectors.md V-N1). -/
theorem test_first_step_after_reset :
    after (step (State.reset.withFetchWord 20 0x00000)) (fun t =>
      decide (t.trace.length = 35) && decide (t.reg = 0x00#8) && decide (t.phase = .ready)) = true := by
  decide

/-- The shift stage passes through intermediate bytes that the outputs do not show (95_test_vectors.md section 2.2): after
six cells of the frame of 0x04, `SR` is 0x01 and `OUT` still the old byte. -/
theorem test_frame_midway :
    after (advanceBy 20 (accept transmitLines { ready refA 0x04#8 with sr := Stage.ofByte 0x00#8, out := 0x00#8 }))
      (fun t => decide (t.sr.toByte = 0x01#8) && decide (t.out = 0x00#8) && decide (t.seq = 19#5)) = true := by
  decide

/-! ### Witnesses: the hypotheses of the obligations can be met, clause by clause -/

theorem witness_DecodedCommandHasEveryOperandBit :
    decode 0x101FD#20 = .ok (.setDir 1#8 .forward) ∧
    0x10101#20 &&& operandMask (.setDir 1#8 .forward) = 0x101FD#20 &&& operandMask (.setDir 1#8 .forward) := by
  decide

/-- A word of an opcode next to a reserved range and one at its end, each presented to an idle block. -/
theorem witness_ExactlyTheReservedOpcodesAreRefused :
    (ready refA 0#8).busy = false ∧
    refusedFor (step ((ready refA 0#8).setPending [0x3FFFF#20, 0x00000#20])) .reservedOpcode = true ∧
    after (step ((ready refA 0#8).setPending [0x2FFFF#20, 0x00000#20])) (fun t => decide (t.pending = [0x00000#20])) = true := by
  decide

theorem witness_SlotsHaveDisjointPairs : Slot.three ≠ Slot.four ∧ (refA.pairTable.row .A).get .three = ⟨5, 7⟩ ∧
    (refA.pairTable.row .B).get .three = ⟨0, 6⟩ := by
  decide

theorem witness_VariantsExchangeSlots3And4 :
    refA.pairTable = refB.pairTable ∧ refA.variant = .A ∧ refB.variant = .B := by
  decide

theorem witness_PinConfigDrivesOnlyAnUndrivenPin :
    (ready refA 0#8).pins.get .clock ≠ .z ∧ off.pins.get .data = .z ∧ off.pins.get .enableN = .z := by
  decide

/-- A rising edge of `CLOCK` and one of `LATCH` are both met. -/
theorem witness_PinWriteDrivesThePinAndTheDeviceReacts :
    (ready refA 1#8).pins.get .clock = .driven false ∧ (ready refA 1#8).pins.data = .driven true ∧
    (({ ready refA 1#8 with pins := { latch := .driven false, data := .driven true, clock := .driven false,
                                      enableN := .driven false } } : State).pins.get .latch = .driven false) := by
  decide

/-- A frame may start: for TransmissionIsMostSignificantBitFirst and TransmissionMakesTheDeviceMirrorTheRegister. -/
theorem witness_frameReady (b : Board) (r : Byte) : (ready b r).frameReady :=
  ⟨nofun, nofun, nofun, rfl⟩

theorem witness_SequenceCounterNumbersEveryWrite : (ready refA 0xA5#8).frameReady ∧ 0 < 26 ∧ 25 < 26 :=
  ⟨witness_frameReady refA 0xA5#8, by decide, by decide⟩

theorem witness_OutputsTakeTheNewByteAsAWhole :
    ({ ready refA 0x85#8 with out := 0x04#8 } : State).frameReady ∧
    after (advanceBy 26 (accept transmitLines { ready refA 0x85#8 with out := 0x04#8 }))
      (fun t => decide (t.outputs = some 0x04#8)) = true ∧
    after (advanceBy 27 (accept transmitLines { ready refA 0x85#8 with out := 0x04#8 }))
      (fun t => decide (t.outputs = some 0x85#8)) = true :=
  ⟨⟨nofun, nofun, nofun, rfl⟩, by decide, by decide⟩

theorem witness_TransmissionIsIdempotent : (ready refA 0x85#8).frameReady ∧ off.pins.latch = .z :=
  ⟨witness_frameReady refA 0x85#8, rfl⟩

theorem witness_RegInitClearsAndTransmits :
    (ready refA 0xA5#8).busy = false ∧ (ready refA 0xA5#8).phase = .ready ∧ (ready refA 0xA5#8).frameReady ∧
    off.busy = false ∧ off.phase = .off :=
  ⟨rfl, rfl, witness_frameReady refA 0xA5#8, rfl, rfl⟩

theorem witness_SetPairWritesTwoBitsAndTransmits :
    (ready refA 0x0C#8).busy = false ∧ (ready refA 0x0C#8).phase = .ready ∧ (ready refA 0x0C#8).frameReady ∧
    (0 : Pos) ≠ 7 ∧ off.busy = false ∧ off.phase = .off :=
  ⟨rfl, rfl, witness_frameReady refA 0x0C#8, by decide, rfl, rfl⟩

theorem witness_SetDirWritesTheSlotsCodeAndTransmits :
    (ready refB 0xFF#8).busy = false ∧ (ready refB 0xFF#8).phase = .ready ∧ (ready refB 0xFF#8).frameReady ∧
    off.busy = false ∧ off.phase = .off ∧ refA.pairTable = refB.pairTable ∧ refA.variant ≠ refB.variant :=
  ⟨rfl, rfl, witness_frameReady refB 0xFF#8, rfl, rfl, rfl, by decide⟩

theorem witness_SetSpeedWritesOneDuty :
    (ready refA 0x04#8).busy = false ∧ (ready refA 0x04#8).phase = .ready ∧ off.busy = false ∧ off.phase = .off := by
  decide

/-- In both phases. -/
theorem witness_NewConstructsTheBlock :
    off.busy = false ∧ off.pins.clock ≠ .driven true ∧
    (ready refA 0x27#8).busy = false ∧ (ready refA 0x27#8).pins.clock ≠ .driven true := by
  decide

theorem witness_RefusalsAreExactlyTheClosedList :
    off.busy = false ∧ off.phase = .off ∧ (Instr.setSpeed 255#8 0#8).isNew = false ∧
    (ready refA 0#8).busy = false ∧ (ready refA 0#8).phase = .ready ∧ (Instr.setPair 7 false 7 false).wellFormed = false := by
  decide

/-- The invariant, with the block constructed or not: for EveryCommandNotRefusedCompletesInFull, SetDirProperties,
EveryDirectionMayFollowEveryOther, SpeedAndDirectionAreIndependent and OutputsShowTheRegisterAfterEveryCommand. -/
theorem witness_Inv : off.Inv ∧ off.phase = .off ∧ (ready refA 0x8D#8).Inv ∧ (ready refA 0x8D#8).phase = .ready :=
  ⟨off_inv, rfl, ready_inv refA 0x8D#8, rfl⟩

/-- A command of each kind that answers a next state from an idle state that meets the invariant: for
CommandsEmitTheirTraceAndNothingElse, RegisterHasTwoWriters, EnableIsOnlyEverAsserted, DutyHasTwoWriters and
OutputsShowTheRegisterAfterEveryCommand. -/
theorem witness_exec_next (i : Instr)
    (h : i ∈ [Instr.new true, .setDir 255#8 .brake, .setSpeed 0#8 255#8, .regInit, .setPair 7 true 0 false]) :
    (ready refB 0x8D#8).Inv ∧ (ready refB 0x8D#8).busy = false ∧ ∃ t, exec i (ready refB 0x8D#8) = .next t := by
  refine ⟨ready_inv refB 0x8D#8, rfl, ?_⟩
  have all : ∀ j ∈ [Instr.new true, .setDir 255#8 .brake, .setSpeed 0#8 255#8, .regInit, .setPair 7 true 0 false],
      after (exec j (ready refB 0x8D#8)) (fun _ => true) = true := by decide
  obtain ⟨t, ht, -⟩ := next_of_after (all i h)
  exact ⟨t, ht⟩

/-- A step with a command presented, and one with none, from a state that meets the invariant: for NoStepChangesTheTables
and EveryStepKeepsTheInvariant. -/
theorem witness_step_next :
    ((ready refA 0x8D#8).setPending [0x10101#20]).Inv ∧
    (∃ t, step ((ready refA 0x8D#8).setPending [0x10101#20]) = .next t) ∧ (∃ t, step (ready refA 0x8D#8) = .next t) := by
  have run : after (step ((ready refA 0x8D#8).setPending [0x10101#20])) (fun _ => true) = true := by decide
  obtain ⟨t, ht, -⟩ := next_of_after run
  exact ⟨⟨rfl, rfl, rfl, nofun, fun _ => rfl, fun _ => ⟨rfl, rfl⟩⟩, ⟨t, ht⟩, ⟨_, rfl⟩⟩

theorem witness_DeviceAndDutyAreNeverReadBack :
    (ready refA 0x04#8).hideDevice = ({ ready refA 0x04#8 with sr := Stage.ofByte 0xFF#8, out := 0xF0#8 } : State).hideDevice ∧
    (ready refA 0x04#8).hideDuty =
      ({ ready refA 0x04#8 with duty := { one := 0#8, two := 1#8, three := 2#8, four := 255#8 } } : State).hideDuty := by
  decide

theorem witness_PairWriteLaws :
    (ready refA 0x5A#8).Inv ∧ (ready refA 0x5A#8).phase = .ready ∧ (0 : Pos) ≠ 7 ∧ (3 : Pos) ≠ 4 ∧
    (0 : Pos) ≠ 3 ∧ (0 : Pos) ≠ 4 ∧ (7 : Pos) ≠ 3 ∧ (7 : Pos) ≠ 4 :=
  ⟨ready_inv refA 0x5A#8, rfl, by decide, by decide, by decide, by decide, by decide, by decide⟩

/-- A history from power-on that begins with `NEW` and stays within R13, and one that is only well-formed. -/
theorem witness_RegisterReflectsTheLastCommandOfEverySlot :
    off.Inv ∧ (∃ m rest, [Instr.new false, .setDir 5#8 .backward, .setDir 0#8 .brake] = .new m :: rest) ∧
    (∀ i ∈ [Instr.new false, .setDir 5#8 .backward, .setDir 0#8 .brake], i.keepsSlots = true) ∧
    (ready refA 0#8).Inv ∧ (ready refA 0#8).phase = .ready ∧
    (∀ i ∈ [Instr.setPair 7 true 0 true, .setSpeed 1#8 0#8, .regInit], i.wellFormed = true) :=
  ⟨off_inv, ⟨_, _, rfl⟩, by decide, ready_inv refA 0#8, rfl, by decide⟩

theorem witness_StepRunsThePresentedCommand :
    ((ready refA 0#8).setPending [0x900DD#20]).pending = 0x900DD#20 :: [] ∧
    decode 0x900DD#20 = .ok (.setPair 5 true 5 true) ∧ off.pending = [] ∧ off.busy = false := by
  decide

theorem witness_ReadyIsEnteredByNewAndNeverLeft :
    off.Inv ∧ off.phase = .off ∧ (Instr.setDir 1#8 .forward).isNew = false ∧
    (ready refA 0x8D#8).Inv ∧ (ready refA 0x8D#8).phase = .ready ∧ (Instr.setPair 0 true 7 true).wellFormed = true :=
  ⟨off_inv, rfl, rfl, ready_inv refA 0x8D#8, rfl, rfl⟩

theorem witness_BusyFromAcceptanceToTheLastLine :
    28 ≤ (clearLines).length ∧
    after (advanceBy 28 (accept clearLines (ready refA 0xFF#8))) (fun t => t.busy) = true ∧
    after (settle (accept clearLines (ready refA 0xFF#8))) (fun t => !t.busy) = true := by
  decide

theorem witness_CommandResumedAtAnyLineEndsTheSame :
    midway.busy = true ∧ after (advanceBy 13 midway) (fun t => t.busy) = true := by
  decide

theorem witness_CommandPresentedWhileBusyWaits :
    midway.busy = true ∧ after (settle midway) (fun t => decide (t.out = 0x04#8)) = true := by
  decide

end Sys2Proof.Tests
end

section
/-! PROOFS. The layer every command shares: a command as a refusal and a list of lines, what its lines do to `REG`
(R11), and the idle state in which each command that is not refused ends (R71, R72, R80, R82, R84). -/

namespace Sys2Proof.Machine

/-! ### A command is a refusal and a list of lines -/

/-- The reason for which an idle block refuses a command, if there is one (R93). -/
def commandRefusal : Instr → State → Option Refusal
  | .new _ => neverRefused
  | .setDir _ _ => needsReady
  | .setSpeed _ _ => needsReady
  | .regInit => needsReady
  | .setPair bitA _ bitB _ => pairRefusal bitA bitB

/-- The lines of a command on a board. -/
def commandLines (b : Board) : Instr → List Micro
  | .new maxspeed => newLines maxspeed
  | .setDir motor dir => dirLines b motor dir
  | .setSpeed motor speed => [.pwmWrite (slotOf motor) speed]
  | .regInit => clearLines
  | .setPair bitA valueA bitB valueB => pairLines bitA valueA bitB valueB

theorem exec_eq_issue (i : Instr) (s : State) :
    exec i s = issue (commandRefusal i) (fun idle => commandLines idle.board i) s := by
  cases i <;> rfl

/-- An idle block that does not refuse a command runs its lines. -/
theorem exec_idle {i : Instr} {s : State} (hb : s.busy = false) (hr : commandRefusal i s = none) :
    exec i s = runLines (commandLines s.board i) (s.setBusy true) := by
  rw [exec_eq_issue, issue_idle hb hr]

/-- A command that an idle block completed was not refused, and its lines were run to the end. -/
theorem exec_idle_next {i : Instr} {s t : State} (hb : s.busy = false) (h : exec i s = .next t) :
    commandRefusal i s = none ∧ runLines (commandLines s.board i) (s.setBusy true) = .next t := by
  rw [exec_eq_issue] at h
  obtain ⟨u, hu, hr, ht⟩ := issue_next h
  rw [settle_idle hb] at hu
  cases hu
  exact ⟨hr, ht⟩

/-- A completed command leaves the block idle, on the same board. -/
theorem exec_idle_frame {i : Instr} {s t : State} (hb : s.busy = false) (h : exec i s = .next t) :
    t.busy = false ∧ t.board = s.board := by
  obtain ⟨htb, -, hboard, -⟩ := runLines_frame (exec_idle_next hb h).2
  exact ⟨htb, hboard⟩

@[simp] theorem pairRefusal_eq_none {bitA bitB : Pos} {s : State} :
    pairRefusal bitA bitB s = none ↔ s.phase = .ready ∧ bitA ≠ bitB := by
  cases h : s.phase <;> simp [pairRefusal, needsReady, h]

/-- A constructed block refuses no well-formed command (R93). -/
theorem commandRefusal_ready {i : Instr} {s : State} (hp : s.phase = .ready) (hw : i.wellFormed = true) :
    commandRefusal i s = none := by
  cases i with
  | new maxspeed => rfl
  | setPair bitA valueA bitB valueB => exact pairRefusal_eq_none.2 ⟨hp, of_decide_eq_true hw⟩
  | setDir motor dir => exact needsReady_eq_none.2 hp
  | setSpeed motor speed => exact needsReady_eq_none.2 hp
  | regInit => exact needsReady_eq_none.2 hp

/-! ### What the lines of a command do to `REG` -/

/-- `REG` after one line: only the clear and the write of a bit have an effect on it (R11). -/
def Micro.onReg (r : Byte) : Micro → Byte
  | .clearReg => 0#8
  | .setBit i v => writeBit r i v
  | .pinConfig _ => r
  | .pwmConfig _ => r
  | .beginFrame => r
  | .frameWrite => r
  | .pinWrite _ _ => r
  | .pwmWrite _ _ => r
  | .setReady => r

/-- `REG` after the lines of a command, from the byte `r`. -/
def regAfter (b : Board) (i : Instr) (r : Byte) : Byte := (commandLines b i).foldl Micro.onReg r

theorem perform_reg {op : Micro} {s t : State} (h : perform op s = .next t) : t.reg = Micro.onReg s.reg op := by
  cases op with
  | pinConfig p =>
    obtain ⟨pins, draws, e⟩ := pinConfig_cases p s
    simp only [perform, e, Host.Outcome.next.injEq] at h
    exact h ▸ rfl
  | frameWrite => exact (frameWrite_frame h).1
  | pinWrite p l =>
    obtain ⟨sr, out, draws, rfl⟩ := pinWrite_next h
    rfl
  | pwmConfig m => cases h; rfl
  | clearReg => cases h; rfl
  | setBit i v => cases h; rfl
  | beginFrame => cases h; rfl
  | pwmWrite m d => cases h; rfl
  | setReady => cases h; rfl

theorem runLines_reg {ops : List Micro} {s t : State} (h : runLines ops s = .next t) :
    t.reg = ops.foldl Micro.onReg s.reg := by
  refine runLines_induct (P := fun left u => left.foldl Micro.onReg u.reg = ops.foldl Micro.onReg s.reg)
    (Q := fun u => u.reg = ops.foldl Micro.onReg s.reg) h rfl ?_ ?_
  · intro op rest u v hu hv
    rw [perform_reg hv]
    exact hu
  · intro u hu
    exact hu

/-- `REG` after any command that an idle block completed. -/
theorem exec_reg {i : Instr} {s t : State} (hb : s.busy = false) (h : exec i s = .next t) :
    t.reg = regAfter s.board i s.reg := by
  rw [runLines_reg (exec_idle_next hb h).2, regAfter, State.setBusy_reg]

/-- A transmission does not write `REG` (R70). -/
@[simp] theorem foldl_onReg_transmitLines (r : Byte) : transmitLines.foldl Micro.onReg r = r := by
  have writes (n : Nat) : (List.replicate n Micro.frameWrite).foldl Micro.onReg r = r := by
    induction n with
    | zero => rfl
    | succ n ih => exact ih
  exact writes 26

@[simp] theorem regAfter_new (b : Board) (maxspeed : Bool) (r : Byte) : regAfter b (.new maxspeed) r = 0#8 := by
  cases maxspeed <;> simp [regAfter, commandLines, newLines, configLines, clearLines, maxSpeedLines, Micro.onReg]

@[simp] theorem regAfter_regInit (b : Board) (r : Byte) : regAfter b .regInit r = 0#8 :=
  foldl_onReg_transmitLines 0#8

@[simp] theorem regAfter_setSpeed (b : Board) (motor speed r : Byte) : regAfter b (.setSpeed motor speed) r = r := rfl

@[simp] theorem regAfter_setPair (b : Board) (bitA : Pos) (valueA : Bool) (bitB : Pos) (valueB : Bool) (r : Byte) :
    regAfter b (.setPair bitA valueA bitB valueB) r = writeBit (writeBit r bitA valueA) bitB valueB :=
  foldl_onReg_transmitLines (writeBit (writeBit r bitA valueA) bitB valueB)

@[simp] theorem regAfter_setDir (b : Board) (motor : Byte) (dir : Direction) (r : Byte) :
    regAfter b (.setDir motor dir) r =
      writeBit (writeBit r (b.pair (slotOf motor)).bitA (dir.code.getLsbD 0))
        (b.pair (slotOf motor)).bitB (dir.code.getLsbD 1) :=
  regAfter_setPair b _ _ _ _ r

/-! ### Bits and directions after a bit-pair write -/

/-- The bit-pair write of two different positions, bit by bit (R72). -/
theorem writePair_getLsbD {bitA bitB : Pos} (hne : bitA ≠ bitB) (r : Byte) (valueA valueB : Bool) (k : Pos) :
    (writeBit (writeBit r bitA valueA) bitB valueB).getLsbD k =
      if k = bitA then valueA else if k = bitB then valueB else r.getLsbD k := by
  rw [writeBit_getLsbD, writeBit_getLsbD]
  by_cases hA : k = bitA
  · simp [hA, hne]
  · simp [hA]

/-- The bit-pair write keeps every other bit, also where the two positions are one (R11). -/
theorem writePair_getLsbD_other {bitA bitB k : Pos} (hA : k ≠ bitA) (hB : k ≠ bitB) (r : Byte)
    (valueA valueB : Bool) :
    (writeBit (writeBit r bitA valueA) bitB valueB).getLsbD k = r.getLsbD k := by
  rw [writeBit_getLsbD, if_neg hB, writeBit_getLsbD, if_neg hA]

theorem directionIn_zero (p : BitPair) : directionIn 0#8 p = .release := by
  simp [directionIn, directionOfBits, directionOfCode]

theorem directionIn_writePair_same {p : BitPair} (hne : p.bitA ≠ p.bitB) (r : Byte) (d : Direction) :
    directionIn (writeBit (writeBit r p.bitA (d.code.getLsbD 0)) p.bitB (d.code.getLsbD 1)) p = d := by
  rw [directionIn, writePair_getLsbD hne, writePair_getLsbD hne, if_pos rfl, if_neg hne.symm, if_pos rfl]
  exact directionOfBits_dirBits d

theorem directionIn_writePair_other {p q : BitPair} (hAA : q.bitA ≠ p.bitA) (hAB : q.bitA ≠ p.bitB)
    (hBA : q.bitB ≠ p.bitA) (hBB : q.bitB ≠ p.bitB) (r : Byte) (valueA valueB : Bool) :
    directionIn (writeBit (writeBit r p.bitA valueA) p.bitB valueB) q = directionIn r q := by
  rw [directionIn, writePair_getLsbD_other hAA hAB, writePair_getLsbD_other hBA hBB, directionIn]

end Sys2Proof.Machine

/-! ### The slots' positions (R54) -/

namespace Sys2Proof

theorem Board.row_positions_nodup (b : Board) (v : Variant) : (b.pairTable.row v).positions.Nodup := by
  have legal := b.legal
  simp only [pairTableLegal, Bool.and_eq_true, decide_eq_true_eq] at legal
  obtain ⟨⟨⟨hA, hB⟩, -⟩, -⟩ := legal
  cases v
  · exact hA
  · exact hB

/-- Where the eight positions of a row are distinct, an A bit is no B bit, and no two slots have their A bit or their
B bit in common. -/
theorem Quad.pairs_disjoint {q : Quad BitPair} (h : q.positions.Nodup) (s t : Slot) :
    (q.get s).bitA ≠ (q.get t).bitB ∧ ((q.get s).bitA = (q.get t).bitA → s = t) ∧
      ((q.get s).bitB = (q.get t).bitB → s = t) := by
  simp only [Quad.positions, List.nodup_cons, List.mem_cons, not_or] at h
  cases s <;> cases t <;> simp only [Quad.get] <;> grind

theorem Board.pair_bitA_ne_bitB (b : Board) (s t : Slot) : (b.pair s).bitA ≠ (b.pair t).bitB :=
  (Quad.pairs_disjoint (b.row_positions_nodup b.variant) s t).1

theorem Board.pair_bitA_inj (b : Board) {s t : Slot} : (b.pair s).bitA = (b.pair t).bitA → s = t :=
  (Quad.pairs_disjoint (b.row_positions_nodup b.variant) s t).2.1

theorem Board.pair_bitB_inj (b : Board) {s t : Slot} : (b.pair s).bitB = (b.pair t).bitB → s = t :=
  (Quad.pairs_disjoint (b.row_positions_nodup b.variant) s t).2.2

namespace Machine

/-- A `SETDIR` gives its direction to the slot its motor index resolves to and to no other (R82). -/
theorem directionIn_regAfter_setDir (b : Board) (motor : Byte) (dir : Direction) (r : Byte) (n : Slot) :
    directionIn (regAfter b (.setDir motor dir) r) (b.pair n) =
      if slotOf motor = n then dir else directionIn r (b.pair n) := by
  rw [regAfter_setDir]
  split
  · next same =>
    subst same
    exact directionIn_writePair_same (b.pair_bitA_ne_bitB _ _) r dir
  · next other =>
    have hAA : (b.pair n).bitA ≠ (b.pair (slotOf motor)).bitA := fun e => other (b.pair_bitA_inj e).symm
    have hBB : (b.pair n).bitB ≠ (b.pair (slotOf motor)).bitB := fun e => other (b.pair_bitB_inj e).symm
    exact directionIn_writePair_other hAA (b.pair_bitA_ne_bitB _ _) (b.pair_bitA_ne_bitB _ _).symm hBB r _ _

/-! ### The state in which a command ends -/

/-- A transmission with nothing after it ends idle, as R74 says. -/
theorem runLines_transmitLines {s : State} (h : s.frameReady) :
    runLines transmitLines s = .next (s.afterFrame s.reg) := by
  have run := runLines_transmit [] s h
  rw [List.append_nil] at run
  exact run

/-! What a command has done before its frame does not show in the state after it. -/

@[simp] theorem State.afterFrame_setReg (s : State) (v r : Byte) : (s.setReg v).afterFrame r = s.afterFrame r := rfl

@[simp] theorem State.afterFrame_setInflight (s : State) (ops : List Micro) (r : Byte) :
    (s.setInflight ops).afterFrame r = s.afterFrame r := rfl

@[simp] theorem State.afterFrame_setBusy (s : State) (b : Bool) (r : Byte) :
    (s.setBusy b).afterFrame r = s.afterFrame r := rfl

/-- The clear of `REGINIT` and its frame (R71). -/
theorem runLines_clearLines {s : State} (h : s.frameReady) : runLines clearLines s = .next (s.afterFrame 0#8) := by
  rw [clearLines, runLines_cons, perform, andThen_next, runLines_transmitLines (by exact h)]
  simp

/-- The bit-pair write of `SETPAIR` and `SETDIR` and its frame (R72). -/
theorem runLines_pairLines {s : State} (h : s.frameReady) (bitA : Pos) (valueA : Bool) (bitB : Pos) (valueB : Bool) :
    runLines (pairLines bitA valueA bitB valueB) s =
      .next (s.afterFrame (writeBit (writeBit s.reg bitA valueA) bitB valueB)) := by
  rw [pairLines, runLines_cons, perform, andThen_next, runLines_cons, perform, andThen_next,
    runLines_transmitLines (by exact h)]
  simp

/-- The idle state after a `NEW`: R80 and R81, everything else as in `s`. -/
def State.afterNew (s : State) (maxspeed : Bool) (draws : Nat) : State :=
  { s with
    reg := 0#8
    phase := .ready
    seq := 31#5
    pins := { latch := .driven true, data := .driven false, clock := .driven false, enableN := .driven false }
    duty := if maxspeed then { one := 255#8, two := 255#8, three := 255#8, four := 255#8 } else s.duty
    sr := Stage.ofByte 0#8
    out := 0#8
    trace := s.trace ++ configEvents ++ frameEvents 0#8 ++ [.write .enableN false] ++
      (if maxspeed then [.pwm .one 255#8, .pwm .two 255#8, .pwm .three 255#8, .pwm .four 255#8] else [])
    busy := false
    inflight := []
    draws := draws }

/-- The lines of `NEW` after its frame (R80). -/
def newClosingLines (maxspeed : Bool) : List Micro :=
  .pinWrite .enableN false :: ((if maxspeed then maxSpeedLines else []) ++ [.setReady])

theorem newLines_eq (maxspeed : Bool) :
    newLines maxspeed = configLines ++ .clearReg :: (transmitLines ++ newClosingLines maxspeed) := by
  cases maxspeed <;> rfl

/-- The close of `NEW` asserts the enable, drives the duties if it is to, and enters `READY` (R80). -/
theorem runLines_newClosing (maxspeed : Bool) (s : State) (h : s.pins.enableN ≠ .z) :
    runLines (newClosingLines maxspeed) s = .next { s with
      phase := .ready
      pins := { s.pins with enableN := .driven false }
      duty := if maxspeed then { one := 255#8, two := 255#8, three := 255#8, four := 255#8 } else s.duty
      trace := s.trace ++ [.write .enableN false] ++
        (if maxspeed then [.pwm .one 255#8, .pwm .two 255#8, .pwm .three 255#8, .pwm .four 255#8] else [])
      busy := false
      inflight := [] } := by
  obtain ⟨board, reg, phase, busy, seq, ⟨l, d, c, e⟩, duty, sr, out, trace, pending, inflight, draws⟩ := s
  cases e with
  | z => exact absurd rfl h
  | driven b =>
    cases maxspeed
    · simp [newClosingLines, runLines_cons, perform, pinWrite, Pins.get, Pins.set, env, State.setInflight, State.emit,
        State.setPin, State.setPhase, State.setBusy]
    · simp [newClosingLines, maxSpeedLines, runLines_cons, perform, pinWrite, pwmWrite, Pins.get, Pins.set, Quad.set,
        env, State.setInflight, State.emit, State.setPin, State.setDuty, State.setPhase, State.setBusy]

/-- A `NEW` from any idle state in which no clock pulse is half done, in either phase (R80, R81). -/
theorem exec_new {s : State} (maxspeed : Bool) (hb : s.busy = false) (hc : s.pins.clock ≠ .driven true) :
    ∃ draws : Nat, exec (.new maxspeed) s = .next (s.afterNew maxspeed draws) := by
  obtain ⟨draws, config⟩ :=
    runLines_config (.clearReg :: (transmitLines ++ newClosingLines maxspeed)) (s.setBusy true)
  obtain ⟨l, hl⟩ := configured_driven false s.pins.latch
  obtain ⟨d, hd⟩ := configured_driven false s.pins.data
  obtain ⟨e, he⟩ := configured_driven (Config.draw s.draws) s.pins.enableN
  refine ⟨draws, ?_⟩
  rw [exec_idle hb rfl, commandLines, newLines_eq, config, runLines_cons, perform, andThen_next,
    runLines_transmit _ _ (by simp [State.frameReady, hl, hd, he, configured_low hc]),
    runLines_newClosing _ _ (by simp [he])]
  simp [State.afterNew]

theorem exec_regInit {s : State} (hb : s.busy = false) (hp : s.phase = .ready) (hf : s.frameReady) :
    exec .regInit s = .next (s.afterFrame 0#8) := by
  rw [exec_idle hb (commandRefusal_ready hp rfl), commandLines, runLines_clearLines (by exact hf),
    State.afterFrame_setBusy]

theorem exec_setPair {s : State} {bitA bitB : Pos} (hb : s.busy = false) (hp : s.phase = .ready) (hf : s.frameReady)
    (hne : bitA ≠ bitB) (valueA valueB : Bool) :
    exec (.setPair bitA valueA bitB valueB) s =
      .next (s.afterFrame (writeBit (writeBit s.reg bitA valueA) bitB valueB)) := by
  have accepted : (Instr.setPair bitA valueA bitB valueB).wellFormed = true := decide_eq_true hne
  rw [exec_idle hb (commandRefusal_ready hp accepted), commandLines, runLines_pairLines (by exact hf),
    State.afterFrame_setBusy, State.setBusy_reg]

theorem exec_setDir {s : State} (hb : s.busy = false) (hp : s.phase = .ready) (hf : s.frameReady)
    (motor : Byte) (dir : Direction) :
    exec (.setDir motor dir) s = .next (s.afterFrame (regAfter s.board (.setDir motor dir) s.reg)) := by
  rw [exec_idle hb (commandRefusal_ready hp rfl), commandLines, dirLines, runLines_pairLines (by exact hf),
    State.afterFrame_setBusy, State.setBusy_reg, regAfter_setDir, dirBits]

theorem exec_setSpeed {s : State} (hb : s.busy = false) (hp : s.phase = .ready) (motor speed : Byte) :
    exec (.setSpeed motor speed) s = .next { s with
      duty := s.duty.set (slotOf motor) speed
      trace := s.trace ++ [.pwm (slotOf motor) speed]
      busy := false
      inflight := [] } := by
  rw [exec_idle hb (commandRefusal_ready hp rfl)]
  rfl

/-! ### The invariant after a command -/

theorem State.Inv.frameReady {s : State} (hs : s.Inv) (hp : s.phase = .ready) : s.frameReady := by
  rw [State.frameReady, hs.readyPins hp]
  exact ⟨nofun, nofun, nofun, rfl⟩

theorem State.Inv.clock_not_high {s : State} (hs : s.Inv) : s.pins.clock ≠ .driven true := by
  cases hp : s.phase with
  | off => rw [hs.off hp]; nofun
  | ready => rw [hs.readyPins hp]; nofun

theorem State.Inv.afterFrame {s : State} (hs : s.Inv) (hp : s.phase = .ready) (r : Byte) : (s.afterFrame r).Inv where
  idle := rfl
  nothingInFlight := rfl
  seqIdle := rfl
  off h := by simp [State.afterFrame, hp] at h
  readyPins _ := by simp [State.afterFrame, hs.readyPins hp]
  mirror _ := ⟨rfl, rfl⟩

theorem State.afterNew_inv (s : State) (maxspeed : Bool) (draws : Nat) : (s.afterNew maxspeed draws).Inv where
  idle := rfl
  nothingInFlight := rfl
  seqIdle := rfl
  off h := by simp [State.afterNew] at h
  readyPins _ := by simp [State.afterNew]
  mirror _ := ⟨rfl, rfl⟩

/-- A command that is not refused completes, in a constructed block that meets the invariant (R90, R95). -/
theorem exec_completes {i : Instr} {s : State} (hs : s.Inv) (hr : commandRefusal i s = none) :
    ∃ t, exec i s = .next t ∧ t.Inv ∧ t.phase = .ready := by
  cases i with
  | new maxspeed =>
    obtain ⟨draws, e⟩ := exec_new maxspeed hs.idle hs.clock_not_high
    exact ⟨_, e, s.afterNew_inv maxspeed draws, rfl⟩
  | setDir motor dir =>
    have hp := needsReady_eq_none.1 hr
    exact ⟨_, exec_setDir hs.idle hp (hs.frameReady hp) motor dir, hs.afterFrame hp _, hp⟩
  | setSpeed motor speed =>
    have hp := needsReady_eq_none.1 hr
    exact ⟨_, exec_setSpeed hs.idle hp motor speed, ⟨rfl, rfl, hs.seqIdle, hs.off, hs.readyPins, hs.mirror⟩, hp⟩
  | regInit =>
    have hp := needsReady_eq_none.1 hr
    exact ⟨_, exec_regInit hs.idle hp (hs.frameReady hp), hs.afterFrame hp _, hp⟩
  | setPair bitA valueA bitB valueB =>
    obtain ⟨hp, hne⟩ := pairRefusal_eq_none.1 hr
    exact ⟨_, exec_setPair hs.idle hp (hs.frameReady hp) hne valueA valueB, hs.afterFrame hp _, hp⟩

end Machine
end Sys2Proof
end

section
/-! PROOFS. Who writes `REG` (R11), and `REG` after a history of commands (R13). -/

namespace Sys2Proof.Machine

/-! ### R11 -/

/-- Settles O25: `REG` after a command is `regAfter`, whose two writers are the clear and the bit-pair write. -/
theorem registerHasTwoWriters : Obligations.RegisterHasTwoWriters := by
  intro s t i hb h
  have hreg := exec_reg hb h
  cases i with
  | new maxspeed => exact hreg.trans (regAfter_new _ _ _)
  | regInit => exact hreg.trans (regAfter_regInit _ _)
  | setSpeed motor speed => exact hreg
  | setPair bitA valueA bitB valueB =>
    intro k hA hB
    rw [hreg, regAfter_setPair, writePair_getLsbD_other hA hB]
  | setDir motor dir =>
    intro k hA hB
    rw [hreg, regAfter_setDir, writePair_getLsbD_other hA hB]

/-! ### Histories -/

theorem wellFormed_of_keepsSlots {i : Instr} (h : i.keepsSlots = true) : i.wellFormed = true := by
  cases i with
  | setPair bitA valueA bitB valueB => exact absurd h Bool.false_ne_true
  | _ => rfl

/-- A history of well-formed commands completes, from a constructed block or beginning with `NEW`: no command of it is
refused or faults. -/
theorem runAll_completes {h : List Instr} {s : State} (hs : s.Inv) (hw : ∀ i ∈ h, i.wellFormed = true)
    (start : s.phase = .ready ∨ ∃ m rest, h = .new m :: rest) : ∃ t, runAll h s = .next t ∧ t.Inv := by
  induction h generalizing s with
  | nil => exact ⟨s, rfl, hs⟩
  | cons i rest ih =>
    obtain ⟨hi, hrest⟩ := List.forall_mem_cons.1 hw
    have accepted : commandRefusal i s = none := by
      rcases start with hp | ⟨m, rest', e⟩
      · exact commandRefusal_ready hp hi
      · cases e
        rfl
    obtain ⟨u, hu, hinv, hp⟩ := exec_completes hs accepted
    obtain ⟨t, ht, htinv⟩ := ih hinv hrest (.inl hp)
    exact ⟨t, andThen_eq_next.2 ⟨u, hu, ht⟩, htinv⟩

/-! ### R13, slot by slot and bit by bit -/

/-- The direction last commanded follows `REG` through one command. -/
theorem lastCommanded_cons (n : Slot) {i : Instr} (hi : i.keepsSlots = true) (b : Board) (r : Byte)
    (rest : List Instr) :
    lastCommanded n (i :: rest) (directionIn r (b.pair n)) =
      lastCommanded n rest (directionIn (regAfter b i r) (b.pair n)) := by
  cases i with
  | new maxspeed => rw [regAfter_new, directionIn_zero, lastCommanded]
  | setDir motor dir => rw [directionIn_regAfter_setDir, lastCommanded]
  | regInit => rw [regAfter_regInit, directionIn_zero, lastCommanded]
  | setSpeed motor speed => exact absurd hi Bool.false_ne_true
  | setPair bitA valueA bitB valueB => exact absurd hi Bool.false_ne_true

/-- The value last written to a bit follows `REG` through one command. -/
theorem lastWritten_cons (k : Pos) {i : Instr} (hi : i.wellFormed = true) (b : Board) (r : Byte) (rest : List Instr) :
    lastWritten b k (i :: rest) (r.getLsbD k) = lastWritten b k rest ((regAfter b i r).getLsbD k) := by
  cases i with
  | new maxspeed => rw [regAfter_new, BitVec.getLsbD_zero, lastWritten]
  | setDir motor dir => rw [regAfter_setDir, writePair_getLsbD (b.pair_bitA_ne_bitB _ _), lastWritten]
  | setSpeed motor speed => rw [regAfter_setSpeed, lastWritten]
  | regInit => rw [regAfter_regInit, BitVec.getLsbD_zero, lastWritten]
  | setPair bitA valueA bitB valueB => rw [regAfter_setPair, writePair_getLsbD (of_decide_eq_true hi), lastWritten]

/-- After a history of `NEW`, `REGINIT` and `SETDIR` a slot has the direction last commanded for it. -/
theorem runAll_direction {h : List Instr} {s t : State} (hb : s.busy = false) (hk : ∀ i ∈ h, i.keepsSlots = true)
    (run : runAll h s = .next t) (n : Slot) : t.direction n = lastCommanded n h (s.direction n) := by
  induction h generalizing s with
  | nil =>
    cases run
    rfl
  | cons i rest ih =>
    obtain ⟨hi, hrest⟩ := List.forall_mem_cons.1 hk
    obtain ⟨u, hu, ht⟩ := andThen_eq_next.1 run
    obtain ⟨hub, hboard⟩ := exec_idle_frame hb hu
    rw [ih hub hrest ht, State.direction, State.direction, lastCommanded_cons n hi, exec_reg hb hu, hboard]

/-- After a history of well-formed commands a bit has the value last written to it. -/
theorem runAll_bit {h : List Instr} {s t : State} (hb : s.busy = false) (hw : ∀ i ∈ h, i.wellFormed = true)
    (run : runAll h s = .next t) (k : Pos) : t.reg.getLsbD k = lastWritten s.board k h (s.reg.getLsbD k) := by
  induction h generalizing s with
  | nil =>
    cases run
    rfl
  | cons i rest ih =>
    obtain ⟨hi, hrest⟩ := List.forall_mem_cons.1 hw
    obtain ⟨u, hu, ht⟩ := andThen_eq_next.1 run
    obtain ⟨hub, hboard⟩ := exec_idle_frame hb hu
    rw [ih hub hrest ht, lastWritten_cons k hi, exec_reg hb hu, hboard]

/-- Settles O33: the history completes by `runAll_completes`, and each of its commands moves `REG` as `lastCommanded`
and `lastWritten` say. -/
theorem registerReflectsTheLastCommandOfEverySlot : Obligations.RegisterReflectsTheLastCommandOfEverySlot := by
  intro s h hs start
  constructor
  · intro hk
    obtain ⟨t, run, ht⟩ := runAll_completes hs (fun i hi => wellFormed_of_keepsSlots (hk i hi)) start
    exact ⟨t, run, ht, runAll_direction hs.idle hk run⟩
  · intro hw
    obtain ⟨t, run, ht⟩ := runAll_completes hs hw start
    exact ⟨t, run, ht, runAll_bit hs.idle hw run⟩

end Sys2Proof.Machine
end

section
/-! PROOFS. A transmission by itself: the order of its bits (R31) and its repetition (R35). -/

namespace Sys2Proof.Machine

/-! ### A transmission by itself -/

theorem transmit_frameReady {s : State} (h : s.frameReady) : transmit s = .next (s.afterFrame s.reg) :=
  runLines_transmitLines h

/-- A next transmission may start from the state after a transmission (R74). -/
theorem State.frameReady.afterFrame {s : State} (h : s.frameReady) (r : Byte) : (s.afterFrame r).frameReady :=
  have ⟨_, _, henable, _⟩ := h
  ⟨nofun, nofun, henable, rfl⟩

@[simp] theorem frameEvents_length (r : Byte) : (frameEvents r).length = 26 := rfl

/-! ### The order of the bits (R31) -/

theorem cellEvents_dataLevels (b : Level) : (cellEvents b).filterMap Event.dataLevel = [b] := rfl

/-- The `DATA` writes of a frame: one in each bit cell, and none in the opening and the closing of the frame. -/
theorem frameEvents_dataLevels (r : Byte) : (frameEvents r).filterMap Event.dataLevel = frameLevels r := by
  have latch (l : Level) : [Event.write .latch l].filterMap Event.dataLevel = [] := rfl
  simp only [frameEvents, List.filterMap_append, latch, List.filterMap_flatMap, cellEvents_dataLevels,
    List.flatMap_singleton', List.nil_append, List.append_nil]

theorem frameLevels_eq_map (r : Byte) : frameLevels r = (List.range 8).map fun j => r.getLsbD (7 - j) := rfl

/-- Settles O12: the events of a transmission are `frameEvents`, whose `DATA` writes carry `frameLevels`. -/
theorem transmissionIsMostSignificantBitFirst : Obligations.TransmissionIsMostSignificantBitFirst := by
  intro s h
  refine ⟨s.afterFrame s.reg, frameEvents s.reg, transmit_frameReady h, rfl, ?_⟩
  rw [frameEvents_dataLevels, frameLevels_eq_map]

/-! ### Lines of a command, one after another -/

/-- The first line of a command once it is accepted. -/
theorem advance_accept_cons (op : Micro) (rest : List Micro) (s : State) :
    advance (accept (op :: rest) s) = perform op ((s.setBusy true).setInflight rest) := rfl

/-- Lines that all complete and keep a property of the pins, done line by line: the lines after them are still to do. -/
theorem advanceBy_length {P : Pins → Prop} {ops rest : List Micro} {s : State} (hs : s.inflight = ops ++ rest)
    (start : P s.pins)
    (line : ∀ op ∈ ops, ∀ u : State, P u.pins → ∃ v, perform op u = .next v ∧ P v.pins) :
    ∃ u, advanceBy ops.length s = .next u ∧ u.inflight = rest ∧ P u.pins := by
  induction ops generalizing s with
  | nil => exact ⟨s, rfl, hs, start⟩
  | cons op ops ih =>
    obtain ⟨hop, hops⟩ := List.forall_mem_cons.1 line
    obtain ⟨v, hv, hP⟩ := hop (s.setInflight (ops ++ rest)) start
    have first : advance s = .next v := by
      rw [advance, hs]
      exact hv
    obtain ⟨-, -, -, hinflight⟩ := perform_frame hv
    obtain ⟨u, hu, hrest⟩ := ih hinflight hP hops
    exact ⟨u, by rw [List.length_cons, advanceBy_succ, first, andThen_next, hu], hrest⟩

/-! ### `LATCH` before the frame of `NEW` (R18, R80) -/

theorem pinConfig_inflight (p : Pin) (s : State) : (pinConfig p s).inflight = s.inflight := by
  obtain ⟨pins, draws, e⟩ := pinConfig_cases p s
  rw [e]

/-- The configuration of any pin leaves a driven pin at its level (R18). -/
theorem pinConfig_keeps_driven (p : Pin) {q : Pin} {s : State} {l : Level} (h : s.pins.get q = .driven l) :
    (pinConfig p s).pins.get q = .driven l := by
  unfold pinConfig
  split
  · next hz =>
    have hne : q ≠ p := by
      rintro rfl
      simp [hz] at h
    cases p <;> simpa [configLevel, State.emit, Pins.get_set, hne] using h
  · exact h

theorem pinConfig_latch_undriven {s : State} (h : s.pins.latch = .z) :
    (pinConfig .latch s).pins.latch = .driven false := by
  simp [pinConfig, configLevel, Pins.get, Pins.set, h]

/-- The lines of `NEW` between the configuration of `LATCH` and the frame (R80). -/
def latchedLines : List Micro := configLines.tail ++ [.clearReg]

theorem newLines_eq_latchedLines (maxspeed : Bool) :
    newLines maxspeed = .pinConfig .latch :: (latchedLines ++ (transmitLines ++ newClosingLines maxspeed)) := by
  rw [newLines_eq]
  rfl

/-- None of these lines moves `LATCH` once it is driven low. -/
theorem latchedLines_keep_latch_low (op : Micro) (hop : op ∈ latchedLines) (u : State)
    (hu : u.pins.latch = .driven false) : ∃ v, perform op u = .next v ∧ v.pins.latch = .driven false := by
  cases op with
  | pinConfig p => exact ⟨_, rfl, pinConfig_keeps_driven p (q := .latch) hu⟩
  | pwmConfig t => exact ⟨_, rfl, hu⟩
  | clearReg => exact ⟨_, rfl, hu⟩
  | _ => simp [latchedLines, configLines] at hop

/-- A `NEW` that finds `LATCH` undriven comes to its frame after 9 lines, with `LATCH` at 0. -/
theorem advanceBy_new_latch_low {s : State} (maxspeed : Bool) (h : s.pins.latch = .z) :
    ∃ u, advanceBy 9 (accept (newLines maxspeed) s) = .next u ∧
      u.inflight = transmitLines ++ newClosingLines maxspeed ∧ u.pins.latch = .driven false := by
  have nine : 9 = latchedLines.length + 1 := rfl
  rw [newLines_eq_latchedLines, nine, advanceBy_succ, advance_accept_cons, perform, andThen_next]
  exact advanceBy_length (P := fun q => q.latch = .driven false) (pinConfig_inflight _ _) (pinConfig_latch_undriven h)
    latchedLines_keep_latch_low

/-- Settles O16: a transmission ends in `afterFrame`, from which the next one starts and ends in the same way; a first
`NEW` configures `LATCH` at 0 before its frame. -/
theorem transmissionIsIdempotent : Obligations.TransmissionIsIdempotent := by
  constructor
  · intro s h
    exact ⟨s.afterFrame s.reg, (s.afterFrame s.reg).afterFrame s.reg, frameEvents s.reg, transmit_frameReady h,
      transmit_frameReady (h.afterFrame s.reg), frameEvents_length s.reg, rfl, rfl, rfl, rfl, rfl,
      Stage.toByte_ofByte s.reg, rfl, rfl, rfl⟩
  · intro s maxspeed h
    obtain ⟨u, hu, hinflight, hlatch⟩ := advanceBy_new_latch_low maxspeed h
    exact ⟨u, hu, by rw [hinflight]; rfl, hlatch⟩

end Sys2Proof.Machine
end

section
/-! PROOFS. Operand assembly and the pair table: directions and their bits (R50, R51), the positions of the slots (R54). -/

namespace Sys2Proof

/-! ### Directions and their bits (R50, R51) -/

@[simp] theorem code_directionOfCode (c : BitVec 2) : (directionOfCode c).code = c := by
  revert c
  decide

@[simp] theorem code_directionOfBits (valueA valueB : Bool) :
    (directionOfBits valueA valueB).code = BitVec.ofBool valueB ++ BitVec.ofBool valueA :=
  code_directionOfCode _

@[simp] theorem dirBits_directionOfBits (valueA valueB : Bool) :
    dirBits (directionOfBits valueA valueB) = (valueA, valueB) := by
  rw [dirBits, code_directionOfBits]
  cases valueA <;> cases valueB <;> rfl

/-- Settles O5: the code of the inverse is the two bits put together, whose bits 0 and 1 are those two again. -/
theorem directionBitsAreABijection : Obligations.DirectionBitsAreABijection :=
  ⟨fun _ => rfl, code_directionOfBits, directionOfBits_dirBits, dirBits_directionOfBits⟩

/-! ### The slots' positions in each variant (R54) -/

/-- Settles O7: the eight positions of each row are distinct, since the board's table is legal; that each is at most 7
is in its type. -/
theorem slotsHaveDisjointPairs : Obligations.SlotsHaveDisjointPairs := by
  intro b v s t
  have disjoint := Quad.pairs_disjoint (b.row_positions_nodup v)
  obtain ⟨bitA_ne_bitB, bitA_inj, bitB_inj⟩ := disjoint s t
  exact ⟨(disjoint s s).1, Fin.is_le _, Fin.is_le _, fun other =>
    ⟨other ∘ bitA_inj, bitA_ne_bitB, (disjoint t s).1.symm, other ∘ bitB_inj⟩⟩

end Sys2Proof
end

section
/-! PROOFS. Register-level commands: a command that an idle block refuses (R93), the mask formula of `SETPAIR` and its
bits (R72), and `SETPAIR` in both phases. -/

namespace Sys2Proof.Machine

/-! ### Refusals (R93) -/

/-- An idle block answers a command it has a reason to refuse with that reason. -/
theorem exec_refused {i : Instr} {s : State} {e : Refusal} (hb : s.busy = false) (hr : commandRefusal i s = some e) :
    exec i s = .refused e := by
  rw [exec_eq_issue, issue_refused hb hr]

theorem pairRefusal_off {s : State} (hp : s.phase = .off) (bitA bitB : Pos) :
    pairRefusal bitA bitB s = some .notConstructed := by
  rw [pairRefusal, needsReady_off hp]

theorem pairRefusal_same_bit {s : State} (hp : s.phase = .ready) (bit : Pos) :
    pairRefusal bit bit s = some .sameBit := by
  rw [pairRefusal, needsReady_eq_none.2 hp]
  exact if_pos rfl

/-! ### The mask formula (R72) -/

/-- A value shifted to a position has no bit but that one. -/
theorem valueAt_getLsbD (i k : Pos) (v : Bool) :
    ((if v then 1#8 else 0#8) <<< i.val).getLsbD k = (decide (k = i) && v) := by
  cases v
  · simp
  · simpa using oneHot_getLsbD i k

/-- The mask formula of two different positions, bit by bit. -/
theorem pairByMask_getLsbD {bitA bitB : Pos} (hne : bitA ≠ bitB) (r : Byte) (valueA valueB : Bool) (k : Pos) :
    (pairByMask r bitA valueA bitB valueB).getLsbD k =
      if k = bitA then valueA else if k = bitB then valueB else r.getLsbD k := by
  simp only [pairByMask, BitVec.getLsbD_or, BitVec.getLsbD_and, BitVec.getLsbD_not, oneHot_getLsbD, valueAt_getLsbD]
  by_cases hA : k = bitA
  · simp [hA, hne]
  · by_cases hB : k = bitB
    · simp [hB, hne.symm]
    · simp [hA, hB]

/-- The mask formula is the two bit writes one after the other, where the positions differ. -/
theorem pairByMask_eq_writePair {bitA bitB : Pos} (hne : bitA ≠ bitB) (r : Byte) (valueA valueB : Bool) :
    pairByMask r bitA valueA bitB valueB = writeBit (writeBit r bitA valueA) bitB valueB := by
  apply BitVec.eq_of_getLsbD_eq
  intro k hk
  exact (pairByMask_getLsbD hne r valueA valueB ⟨k, hk⟩).trans (writePair_getLsbD hne r valueA valueB ⟨k, hk⟩).symm

/-! ### `SETPAIR` (R72) -/

/-- Settles O18: the two bit writes that `SETPAIR` sends are the mask formula; each refusal is the first reason that
`pairRefusal` finds. -/
theorem setPairWritesTwoBitsAndTransmits : Obligations.SetPairWritesTwoBitsAndTransmits := by
  intro s bitA valueA bitB valueB hb
  refine ⟨fun hp hf hne => ⟨?_, pairByMask_getLsbD hne s.reg valueA valueB⟩, fun hp => ?_, fun hp same => ?_⟩
  · rw [exec_setPair hb hp hf hne, pairByMask_eq_writePair hne]
  · exact exec_refused hb (pairRefusal_off hp bitA bitB)
  · subst same
    exact exec_refused hb (pairRefusal_same_bit hp bitA)

end Sys2Proof.Machine
end

section
/-! PROOFS. Controller-level commands: the slots' pairs under the two variants (R55, R56), `SETDIR` in both phases (R82),
and the directions of the slots after a command (R85). -/

namespace Sys2Proof

/-! ### The pair table under the two variants (R55, R56) -/

/-- The slot that has a slot's table entry under the other variant: slots 3 and 4 are exchanged (R55, R56). -/
def Slot.underOtherVariant : Slot → Slot
  | .one => .one
  | .two => .two
  | .three => .four
  | .four => .three

theorem Table.get_underOtherVariant {α : Type} [DecidableEq α] {t : Table α} (h : t.swapped = true) {v w : Variant}
    (hne : v ≠ w) (s : Slot) : (t.row v).get s = (t.row w).get s.underOtherVariant := by
  simp only [Table.swapped, Bool.and_eq_true, decide_eq_true_eq] at h
  obtain ⟨⟨⟨one, two⟩, three⟩, four⟩ := h
  cases v <;> cases w
  case A.B => cases s <;> simp only [Table.row, Quad.get, Slot.underOtherVariant, one, two, three, four]
  case B.A => cases s <;> simp only [Table.row, Quad.get, Slot.underOtherVariant, one, two, three, four]
  case A.A => exact absurd rfl hne
  case B.B => exact absurd rfl hne

theorem Board.pairTable_swapped (b : Board) : b.pairTable.swapped = true := by
  have legal := b.legal
  simp only [pairTableLegal, Bool.and_eq_true] at legal
  obtain ⟨⟨-, swapped⟩, -⟩ := legal
  exact swapped

/-- Two instances with one table and different variants: a slot's pair is the other's pair of the exchanged slot. -/
theorem Board.pair_underOtherVariant {a b : Board} (htable : a.pairTable = b.pairTable)
    (hvariant : a.variant ≠ b.variant) (s : Slot) : a.pair s = b.pair s.underOtherVariant := by
  rw [Board.pair, Board.pair, htable]
  exact Table.get_underOtherVariant b.pairTable_swapped hvariant s

/-- Different slots of a board have no position in common (R54). -/
theorem Board.pairs_disjoint (b : Board) {s t : Slot} (hne : s ≠ t) :
    (b.pair s).bitA ≠ (b.pair t).bitA ∧ (b.pair s).bitA ≠ (b.pair t).bitB ∧
      (b.pair s).bitB ≠ (b.pair t).bitA ∧ (b.pair s).bitB ≠ (b.pair t).bitB :=
  ⟨hne ∘ b.pair_bitA_inj, b.pair_bitA_ne_bitB s t, (b.pair_bitA_ne_bitB t s).symm, hne ∘ b.pair_bitB_inj⟩

/-- A slot that is exchanged has no position in common with itself under the other variant (R82). -/
theorem Board.pair_disjoint_underOtherVariant {a b : Board} (htable : a.pairTable = b.pairTable)
    (hvariant : a.variant ≠ b.variant) {s : Slot} (moved : s.underOtherVariant ≠ s) :
    (a.pair s).bitA ≠ (b.pair s).bitA ∧ (a.pair s).bitA ≠ (b.pair s).bitB ∧
      (a.pair s).bitB ≠ (b.pair s).bitA ∧ (a.pair s).bitB ≠ (b.pair s).bitB := by
  rw [Board.pair_underOtherVariant htable hvariant s]
  exact b.pairs_disjoint moved

namespace Machine

/-! ### `SETDIR` (R82) -/

/-- The byte of a `SETDIR`, bit by bit: the code in the two bits of its slot, the other six bits kept (R82). -/
theorem regAfter_setDir_getLsbD (b : Board) (motor : Byte) (dir : Direction) (r : Byte) (k : Pos) :
    (regAfter b (.setDir motor dir) r).getLsbD k =
      if k = (b.pair (slotOf motor)).bitA then dir.code.getLsbD 0
      else if k = (b.pair (slotOf motor)).bitB then dir.code.getLsbD 1 else r.getLsbD k := by
  rw [regAfter_setDir, writePair_getLsbD (b.pair_bitA_ne_bitB _ _)]

/-- Settles O19: `SETDIR` ends in `afterFrame` of the byte that `regAfter_setDir_getLsbD` gives bit by bit; the other
variant moves slots 3 and 4 and no other. -/
theorem setDirWritesTheSlotsCodeAndTransmits : Obligations.SetDirWritesTheSlotsCodeAndTransmits := by
  refine ⟨fun s motor dir hb => ⟨fun hp hf => ?_, fun hp => exec_refused hb (needsReady_off hp)⟩, rfl, rfl, ?_⟩
  · have hne := s.board.pair_bitA_ne_bitB (slotOf motor) (slotOf motor)
    refine ⟨_, exec_setDir hb hp hf motor dir, ?_, ?_, fun k hA hB => ?_⟩
    · rw [regAfter_setDir_getLsbD, if_pos rfl]
    · rw [regAfter_setDir_getLsbD, if_neg hne.symm, if_pos rfl]
    · rw [regAfter_setDir_getLsbD, if_neg hA, if_neg hB]
  · intro a b htable hvariant
    have entry := Board.pair_underOtherVariant htable hvariant
    refine ⟨entry .one, entry .two, fun s hs => Board.pair_disjoint_underOtherVariant htable hvariant ?_⟩
    rcases hs with rfl | rfl <;> decide

/-! ### Directions after a command (R85) -/

/-- The directions of the slots after any command that an idle block completed. -/
theorem exec_direction {i : Instr} {s t : State} (hb : s.busy = false) (h : exec i s = .next t) (n : Slot) :
    t.direction n = directionIn (regAfter s.board i s.reg) (s.board.pair n) := by
  obtain ⟨-, hboard⟩ := exec_idle_frame hb h
  rw [State.direction, exec_reg hb h, hboard]

/-- A well-formed command completes in a constructed block, with the directions that `regAfter` gives the slots. -/
theorem exec_ready_direction {i : Instr} {s : State} (hs : s.Inv) (hp : s.phase = .ready) (hw : i.wellFormed = true) :
    ∃ t, exec i s = .next t ∧
      ∀ n : Slot, t.direction n = directionIn (regAfter s.board i s.reg) (s.board.pair n) := by
  obtain ⟨t, ht, -⟩ := exec_completes hs (commandRefusal_ready hp hw)
  exact ⟨t, ht, exec_direction hs.idle ht⟩

/-- Settles O32: each command completes, and the directions after it are those of its byte: the one written by `SETDIR`,
Release in the cleared byte, and unchanged by `SETSPEED`. -/
theorem everyDirectionMayFollowEveryOther : Obligations.EveryDirectionMayFollowEveryOther := by
  intro s m maxspeed hs hp
  refine ⟨fun d => ?_, ?_, ?_, fun v => exec_ready_direction (i := .setSpeed m v) hs hp rfl⟩
  · obtain ⟨t, ht, hdir⟩ := exec_ready_direction (i := .setDir m d) hs hp rfl
    refine ⟨t, ht, fun n => ?_⟩
    rw [hdir, directionIn_regAfter_setDir, State.direction]
    simp only [eq_comm (a := n)]
  · obtain ⟨t, ht, hdir⟩ := exec_ready_direction (i := .regInit) hs hp rfl
    exact ⟨t, ht, fun n => by rw [hdir, regAfter_regInit, directionIn_zero]⟩
  · obtain ⟨t, ht, hdir⟩ := exec_ready_direction (i := .new maxspeed) hs hp rfl
    exact ⟨t, ht, fun n => by rw [hdir, regAfter_new, directionIn_zero]⟩

end Machine
end Sys2Proof
end

section
/-! PROOFS. The two phases of the block (R95): what the lines of a command and a step do to `PHASE` (R16). -/

namespace Sys2Proof.Machine

/-! ### What the lines of a command do to `PHASE` -/

/-- The last line of `NEW` is the only one that has an effect on `PHASE` (R16, R80). -/
theorem perform_phase {op : Micro} {s t : State} (h : perform op s = .next t) :
    t.phase = if op = .setReady then .ready else s.phase := by
  cases op with
  | pinConfig p =>
    obtain ⟨pins, draws, e⟩ := pinConfig_cases p s
    simp only [perform, e, Host.Outcome.next.injEq] at h
    exact h ▸ rfl
  | frameWrite =>
    obtain ⟨-, hphase, -⟩ := frameWrite_frame h
    exact hphase
  | pinWrite p l =>
    obtain ⟨sr, out, draws, rfl⟩ := pinWrite_next h
    rfl
  | pwmConfig m => cases h; rfl
  | clearReg => cases h; rfl
  | setBit i v => cases h; rfl
  | beginFrame => cases h; rfl
  | pwmWrite m d => cases h; rfl
  | setReady => cases h; rfl

/-- Lines that start in `READY`, or among which `READY` is entered, end in `READY`. -/
theorem runLines_ready {ops : List Micro} {s t : State} (h : runLines ops s = .next t)
    (start : s.phase = .ready ∨ .setReady ∈ ops) : t.phase = .ready := by
  refine runLines_induct (P := fun left u => u.phase = .ready ∨ .setReady ∈ left)
    (Q := fun u => u.phase = .ready) h start ?_ ?_
  · intro op rest u v hu hv
    rw [perform_phase hv]
    by_cases enters : op = .setReady
    · exact .inl (if_pos enters)
    · rw [if_neg enters, State.setInflight_phase]
      exact hu.imp_right fun hmem => (List.mem_cons.1 hmem).resolve_left (Ne.symm enters)
  · intro u hu
    exact hu.resolve_right List.not_mem_nil

/-! ### The phases and the commands -/

/-- Before the first `NEW` every other command is refused, whatever its operands (R93). -/
theorem commandRefusal_off {i : Instr} {s : State} (hp : s.phase = .off) (hi : i.isNew = false) :
    commandRefusal i s = some .notConstructed := by
  cases i with
  | new maxspeed => exact absurd hi.symm Bool.false_ne_true
  | setPair bitA valueA bitB valueB => exact pairRefusal_off hp bitA bitB
  | setDir motor dir => exact needsReady_off hp
  | setSpeed motor speed => exact needsReady_off hp
  | regInit => exact needsReady_off hp

/-- A command that is not refused is presented in `READY` or enters it. -/
theorem ready_or_enters_ready {i : Instr} {s : State} (hr : commandRefusal i s = none) (b : Board) :
    s.phase = .ready ∨ .setReady ∈ commandLines b i := by
  cases i with
  | new maxspeed => exact .inr (by simp [commandLines, newLines])
  | setPair bitA valueA bitB valueB => exact .inl (pairRefusal_eq_none.1 hr).1
  | setDir motor dir => exact .inl (needsReady_eq_none.1 hr)
  | setSpeed motor speed => exact .inl (needsReady_eq_none.1 hr)
  | regInit => exact .inl (needsReady_eq_none.1 hr)

/-- Every completed command ends in `READY`, from a busy state too. -/
theorem exec_ready {i : Instr} {s t : State} (h : exec i s = .next t) : t.phase = .ready := by
  rw [exec_eq_issue] at h
  obtain ⟨u, -, hr, ht⟩ := issue_next h
  exact runLines_ready ht (ready_or_enters_ready hr u.board)

/-- Completing the command in progress does not leave `READY`. -/
theorem settle_ready {s t : State} (h : settle s = .next t) (hp : s.phase = .ready) : t.phase = .ready := by
  unfold settle at h
  split at h
  · exact runLines_ready h (.inl hp)
  · cases h
    exact hp

/-! ### The phases and the steps -/

/-- Everything a step that answers a next state has done: waited with nothing presented, or taken the first word from
the port and run its command (R67). -/
theorem step_next {s t : State} (h : step s = .next t) :
    (s.pending = [] ∧ settle s = .next t) ∨
    ∃ w rest i, s.pending = w :: rest ∧ decode w = .ok i ∧ exec i (s.setPending rest) = .next t := by
  unfold step at h
  split at h
  · next none_presented => exact .inl ⟨none_presented, h⟩
  · next w rest presented =>
    split at h
    · next i decoded => exact .inr ⟨w, rest, i, presented, decoded, h⟩
    · obtain ⟨u, -, refused⟩ := andThen_eq_next.1 h
      cases refused

/-- No step leaves `READY`, whatever is in progress and whatever is presented (R95). -/
theorem step_ready {s t : State} (h : step s = .next t) (hp : s.phase = .ready) : t.phase = .ready := by
  rcases step_next h with ⟨-, settled⟩ | ⟨w, rest, i, -, -, ran⟩
  · exact settle_ready settled hp
  · exact exec_ready ran

/-- Settles O37: a command is refused in `OFF` unless it is `NEW` and completes when it is not refused; what completes was
presented in `READY` or enters it, and no line leaves it. -/
theorem readyIsEnteredByNewAndNeverLeft : Obligations.ReadyIsEnteredByNewAndNeverLeft := by
  refine ⟨fun s i hs hp hi => ?_, fun s maxspeed hs => ?_, fun s i hs hp hw => ?_, fun s t i => exec_ready,
    fun s t => step_ready⟩
  · exact exec_refused hs.idle (commandRefusal_off hp hi)
  · obtain ⟨t, ht, -, ready⟩ := exec_completes (i := .new maxspeed) hs rfl
    exact ⟨t, ht, ready⟩
  · obtain ⟨t, ht, -⟩ := exec_completes hs (commandRefusal_ready hp hw)
    exact ⟨t, ht⟩

end Sys2Proof.Machine
end

section
/-! PROOFS. The command word: what the decoder answers at each opcode (R60, R66(a)), the encoder as its inverse up to
the reserved bits (R61 to R65, R66(c)), and the slot of a motor index (R52). -/

namespace Sys2Proof

/-! ### The decoder, opcode by opcode -/

theorem decode_new {w : Word} (h : opcode w = 0x0#4) : decode w = .ok (.new (w.getLsbD 0)) := by
  simp [decode, h]

theorem decode_setDir {w : Word} (h : opcode w = 0x1#4) :
    decode w = .ok (.setDir (bits w 8 8) (directionOfCode (bits w 0 2))) := by
  simp [decode, h]

theorem decode_setSpeed {w : Word} (h : opcode w = 0x2#4) :
    decode w = .ok (.setSpeed (bits w 8 8) (bits w 0 8)) := by
  simp [decode, h]

theorem decode_regInit {w : Word} (h : opcode w = 0x8#4) : decode w = .ok .regInit := by
  simp [decode, h]

theorem decode_setPair {w : Word} (h : opcode w = 0x9#4) :
    decode w = .ok (.setPair (posOfCode (bits w 0 3)) (w.getLsbD 3) (posOfCode (bits w 4 3)) (w.getLsbD 7)) := by
  simp [decode, h]

/-- The opcode of a word that is a command, and the command it then is. -/
theorem decode_ok_cases {w : Word} {i : Instr} (h : decode w = .ok i) :
    (opcode w = 0x0#4 ∧ i = .new (w.getLsbD 0)) ∨
    (opcode w = 0x1#4 ∧ i = .setDir (bits w 8 8) (directionOfCode (bits w 0 2))) ∨
    (opcode w = 0x2#4 ∧ i = .setSpeed (bits w 8 8) (bits w 0 8)) ∨
    (opcode w = 0x8#4 ∧ i = .regInit) ∨
    (opcode w = 0x9#4 ∧
      i = .setPair (posOfCode (bits w 0 3)) (w.getLsbD 3) (posOfCode (bits w 4 3)) (w.getLsbD 7)) := by
  unfold decode at h
  split_ifs at h <;> cases h <;> simp only [*, and_self, true_or, or_true]

/-- A word is no command exactly when its opcode is none of the five (R66(a)). -/
theorem decode_error_iff (w : Word) :
    (∃ e, decode w = .error e) ↔
      opcode w ≠ 0x0#4 ∧ opcode w ≠ 0x1#4 ∧ opcode w ≠ 0x2#4 ∧ opcode w ≠ 0x8#4 ∧ opcode w ≠ 0x9#4 := by
  unfold decode
  split_ifs <;> simp [*]

theorem opcode_toNat (w : Word) : (opcode w).toNat = w.toNat / 2 ^ 16 := by
  have bound : w.toNat < 2 ^ 20 := w.isLt
  rw [opcode, bits, BitVec.extractLsb'_toNat, Nat.shiftRight_eq_div_pow]
  omega

theorem reserved_opcode_iff (w : Word) :
    (∃ e, decode w = .error e) ↔
      (0x3 ≤ w.toNat / 2 ^ 16 ∧ w.toNat / 2 ^ 16 ≤ 0x7) ∨ (0xA ≤ w.toNat / 2 ^ 16 ∧ w.toNat / 2 ^ 16 ≤ 0xF) := by
  have bound : w.toNat < 2 ^ 20 := w.isLt
  rw [decode_error_iff]
  simp only [ne_eq, ← BitVec.toNat_inj, opcode_toNat, BitVec.toNat_ofNat]
  omega

/-! ### The fields of an encoded word -/

@[simp] theorem directionOfCode_code (d : Direction) : directionOfCode d.code = d := by
  cases d <;> rfl

theorem posOfCode_posCode (i : Pos) : posOfCode (posCode i) = i := rfl

theorem posCode_posOfCode (c : BitVec 3) : posCode (posOfCode c) = c := rfl

theorem opcode_and (w m : Word) : opcode (w &&& m) = opcode w &&& opcode m := BitVec.extractLsb'_and

/-- The opcode of a word that is the opcode of a row under the mask of the rows (R60). -/
theorem opcode_of_mask {w : Word} {op : BitVec 4} (row : w &&& 0xF0000#20 = op ++ 0#16) : opcode w = op := by
  have mask : opcode 0xF0000#20 = BitVec.allOnes 4 := rfl
  have same : opcode (w &&& 0xF0000#20) = op := row ▸ BitVec.extractLsb'_append_eq_left
  rwa [opcode_and, mask, BitVec.and_allOnes] at same

theorem encode_new_maxspeed (maxspeed : Bool) : (encode (.new maxspeed)).getLsbD 0 = maxspeed := by
  cases maxspeed <;> rfl

theorem encode_setDir_fields (motor : Byte) (dir : Direction) :
    bits (encode (.setDir motor dir)) 8 8 = motor ∧ bits (encode (.setDir motor dir)) 0 2 = dir.code := by
  constructor
  · rw [encode, bits, BitVec.extractLsb'_append_eq_of_le (by decide), BitVec.extractLsb'_append_eq_of_le (by decide)]
    exact BitVec.extractLsb'_append_eq_right
  · exact BitVec.extractLsb'_append_eq_right

theorem encode_setSpeed_fields (motor speed : Byte) :
    bits (encode (.setSpeed motor speed)) 8 8 = motor ∧ bits (encode (.setSpeed motor speed)) 0 8 = speed := by
  constructor
  · rw [encode, bits, BitVec.extractLsb'_append_eq_of_le (by decide)]
    exact BitVec.extractLsb'_append_eq_right
  · exact BitVec.extractLsb'_append_eq_right

theorem encode_setPair_positions (bitA : Pos) (valueA : Bool) (bitB : Pos) (valueB : Bool) :
    bits (encode (.setPair bitA valueA bitB valueB)) 0 3 = posCode bitA ∧
    bits (encode (.setPair bitA valueA bitB valueB)) 4 3 = posCode bitB := by
  constructor
  · exact BitVec.extractLsb'_append_eq_right
  · rw [encode, bits, BitVec.extractLsb'_append_eq_of_le (by decide), BitVec.extractLsb'_append_eq_of_le (by decide)]
    exact BitVec.extractLsb'_append_eq_right

theorem encode_setPair_values (bitA : Pos) (valueA : Bool) (bitB : Pos) (valueB : Bool) :
    (encode (.setPair bitA valueA bitB valueB)).getLsbD 3 = valueA ∧
    (encode (.setPair bitA valueA bitB valueB)).getLsbD 7 = valueB := by
  simp only [encode, BitVec.getLsbD_append]
  cases valueA <;> cases valueB <;> exact ⟨rfl, rfl⟩

/-! ### Decoding an encoded word -/

theorem decode_encode (i : Instr) : decode (encode i) = .ok i := by
  cases i with
  | new maxspeed =>
    rw [decode_new (opcode_of_mask (Laws.RowMatch.new maxspeed)), encode_new_maxspeed]
  | setDir motor dir =>
    obtain ⟨hmotor, hdir⟩ := encode_setDir_fields motor dir
    rw [decode_setDir (opcode_of_mask (Laws.RowMatch.setDir motor dir)), hmotor, hdir, directionOfCode_code]
  | setSpeed motor speed =>
    obtain ⟨hmotor, hspeed⟩ := encode_setSpeed_fields motor speed
    rw [decode_setSpeed (opcode_of_mask (Laws.RowMatch.setSpeed motor speed)), hmotor, hspeed]
  | regInit => exact decode_regInit (opcode_of_mask Laws.RowMatch.regInit)
  | setPair bitA valueA bitB valueB =>
    obtain ⟨hbitA, hbitB⟩ := encode_setPair_positions bitA valueA bitB valueB
    obtain ⟨hvalueA, hvalueB⟩ := encode_setPair_values bitA valueA bitB valueB
    rw [decode_setPair (opcode_of_mask (Laws.RowMatch.setPair bitA valueA bitB valueB)), hbitA, hbitB, hvalueA, hvalueB,
      posOfCode_posCode, posOfCode_posCode]

/-- Settles O1: the opcode of an encoded word selects its command's case of the decoder, and each field reads back the
operand written there. -/
theorem decodeOfEncodeIsTheCommand : Obligations.DecodeOfEncodeIsTheCommand :=
  decode_encode

/-! ### Encoding a decoded word -/

/-- A mask in two parts masks the two parts of a field. -/
theorem bits_and_append (w : Word) (lo : Nat) {len len' : Nat} (m : BitVec len') (m' : BitVec len) :
    bits w lo (len' + len) &&& (m ++ m') = (bits w (lo + len) len' &&& m) ++ (bits w lo len &&& m') := by
  rw [← BitVec.and_append]
  congr 1
  exact (BitVec.extractLsb'_append_extractLsb'_eq_extractLsb' rfl).symm

theorem bits_zero_self (w : Word) : bits w 0 20 = w := BitVec.extractLsb'_eq_self

theorem bits_one (w : Word) (k : Nat) : bits w k 1 = BitVec.ofBool (w.getLsbD k) := by
  apply BitVec.eq_of_getLsbD_eq
  intro i hi
  obtain rfl : i = 0 := by omega
  simp [bits]

/-! A word under the operand mask of a command is the fields of that command, with zeros between them (R61 to R65). -/

theorem and_mask_new (w : Word) : w &&& 0xF0001#20 = opcode w ++ 0#15 ++ BitVec.ofBool (w.getLsbD 0) := by
  have mask : 0xF0001#20 = BitVec.allOnes 4 ++ 0#15 ++ BitVec.allOnes 1 := rfl
  have word : w = bits w 0 (4 + 15 + 1) := (bits_zero_self w).symm
  conv_lhs => rw [word, mask, bits_and_append, bits_and_append]
  rw [BitVec.and_allOnes, BitVec.and_allOnes, BitVec.and_zero, bits_one, opcode]

theorem and_mask_setDir (w : Word) : w &&& 0xFFF03#20 = opcode w ++ bits w 8 8 ++ 0#6 ++ bits w 0 2 := by
  have mask : 0xFFF03#20 = BitVec.allOnes 4 ++ BitVec.allOnes 8 ++ 0#6 ++ BitVec.allOnes 2 := rfl
  have word : w = bits w 0 (4 + 8 + 6 + 2) := (bits_zero_self w).symm
  conv_lhs => rw [word, mask, bits_and_append, bits_and_append, bits_and_append]
  rw [BitVec.and_allOnes, BitVec.and_allOnes, BitVec.and_allOnes, BitVec.and_zero, opcode]

theorem and_mask_setSpeed (w : Word) : w &&& 0xFFFFF#20 = opcode w ++ bits w 8 8 ++ bits w 0 8 := by
  have mask : 0xFFFFF#20 = BitVec.allOnes 4 ++ BitVec.allOnes 8 ++ BitVec.allOnes 8 := rfl
  have word : w = bits w 0 (4 + 8 + 8) := (bits_zero_self w).symm
  conv_lhs => rw [word, mask, bits_and_append, bits_and_append]
  rw [BitVec.and_allOnes, BitVec.and_allOnes, BitVec.and_allOnes, opcode]

theorem and_mask_regInit (w : Word) : w &&& 0xF0000#20 = opcode w ++ 0#16 := by
  have mask : 0xF0000#20 = BitVec.allOnes 4 ++ 0#16 := rfl
  have word : w = bits w 0 (4 + 16) := (bits_zero_self w).symm
  conv_lhs => rw [word, mask, bits_and_append]
  rw [BitVec.and_allOnes, BitVec.and_zero, opcode]

theorem and_mask_setPair (w : Word) :
    w &&& 0xF00FF#20 = opcode w ++ 0#8 ++ BitVec.ofBool (w.getLsbD 7) ++ bits w 4 3 ++ BitVec.ofBool (w.getLsbD 3) ++
      bits w 0 3 := by
  have mask : 0xF00FF#20 = BitVec.allOnes 4 ++ 0#8 ++ BitVec.allOnes 1 ++ BitVec.allOnes 3 ++ BitVec.allOnes 1 ++
    BitVec.allOnes 3 := rfl
  have word : w = bits w 0 (4 + 8 + 1 + 3 + 1 + 3) := (bits_zero_self w).symm
  conv_lhs => rw [word, mask, bits_and_append, bits_and_append, bits_and_append, bits_and_append, bits_and_append]
  simp only [BitVec.and_allOnes, BitVec.and_zero, bits_one, opcode]

theorem encode_of_decode {w : Word} {i : Instr} (h : decode w = .ok i) : encode i = w &&& operandMask i := by
  rcases decode_ok_cases h with ⟨hop, rfl⟩ | ⟨hop, rfl⟩ | ⟨hop, rfl⟩ | ⟨hop, rfl⟩ | ⟨hop, rfl⟩
  · rw [operandMask, and_mask_new, hop, encode]
  · rw [operandMask, and_mask_setDir, hop, encode, code_directionOfCode]
  · rw [operandMask, and_mask_setSpeed, hop, encode]
  · rw [operandMask, and_mask_regInit, hop, encode]
  · rw [operandMask, and_mask_setPair, hop, encode, posCode_posOfCode, posCode_posOfCode]

/-- The opcode is among the bits that the operand mask of any command keeps. -/
theorem opcode_and_operandMask (w : Word) (i : Instr) : opcode (w &&& operandMask i) = opcode w := by
  have mask : opcode (operandMask i) = BitVec.allOnes 4 := by
    cases i <;> rw [operandMask] <;> rfl
  rw [opcode_and, mask, BitVec.and_allOnes]

/-- A word with the opcode of a command is a command of the same row. -/
theorem decode_same_opcode {w w' : Word} {i : Instr} (h : decode w = .ok i) (hop : opcode w' = opcode w) :
    ∃ i', decode w' = .ok i' ∧ operandMask i' = operandMask i := by
  rcases decode_ok_cases h with ⟨hw, rfl⟩ | ⟨hw, rfl⟩ | ⟨hw, rfl⟩ | ⟨hw, rfl⟩ | ⟨hw, rfl⟩
  · exact ⟨_, decode_new (hop.trans hw), rfl⟩
  · exact ⟨_, decode_setDir (hop.trans hw), rfl⟩
  · exact ⟨_, decode_setSpeed (hop.trans hw), rfl⟩
  · exact ⟨_, decode_regInit (hop.trans hw), rfl⟩
  · exact ⟨_, decode_setPair (hop.trans hw), rfl⟩

/-- Settles O2: the command's own word is the given one under the operand mask; a word that agrees under the mask has
the same opcode, so it is a command with the same own word, which is the same command by `decode_encode`. -/
theorem decodedCommandHasEveryOperandBit : Obligations.DecodedCommandHasEveryOperandBit := by
  intro w i h
  refine ⟨encode_of_decode h, fun w' agree => ?_⟩
  have hop : opcode w' = opcode w := by rw [← opcode_and_operandMask w' i, agree, opcode_and_operandMask]
  obtain ⟨i', h', mask⟩ := decode_same_opcode h hop
  have word : encode i' = encode i := by rw [encode_of_decode h', encode_of_decode h, mask, agree]
  rw [h', ← decode_encode i', word, decode_encode]

/-! ### Words and motor indices of the spec -/

/-- Settles O4: twelve fixed words, evaluated. -/
theorem specCommandWordsDecode : Obligations.SpecCommandWordsDecode := by
  unfold Obligations.SpecCommandWordsDecode
  decide

/-- The slot of a motor index by its residue (R52). -/
theorem slotOf_eq_iff (m : Byte) :
    (slotOf m = .four ↔ m.toNat % 4 = 0) ∧ (slotOf m = .one ↔ m.toNat % 4 = 1) ∧
    (slotOf m = .two ↔ m.toNat % 4 = 2) ∧ (slotOf m = .three ↔ m.toNat % 4 = 3) := by
  unfold slotOf
  split_ifs <;> simp <;> omega

/-- The slot has period 4, also where the index wraps at 256. -/
theorem slotOf_add_four (m : Byte) : slotOf (m + 4#8) = slotOf m := by
  have residue : (m + 4#8).toNat % 4 = m.toNat % 4 := by
    rw [BitVec.toNat_add, BitVec.toNat_ofNat]
    omega
  simp only [slotOf, residue]

/-- Settles O6: the residue modulo 4 decides the slot, and adding 4 keeps the residue. -/
theorem slotIsTheMotorIndexModuloFour : Obligations.SlotIsTheMotorIndexModuloFour :=
  ⟨slotOf_eq_iff, slotOf_add_four, rfl, rfl, rfl, rfl, rfl, rfl, rfl⟩

end Sys2Proof
end

section
/-! PROOFS. What no command reads back: the downstream device and the duties (R12, R21, R24). A view that hides a part
of the state which no line of a command reads is carried from the lines to whole commands. -/

namespace Sys2Proof.Machine

/-! ### Results that differ in the hidden part only -/

/-- States alike through a view are taken to results alike through it. -/
def Respects (f : State → State) (g : State → Result) : Prop :=
  ∀ s s' : State, f s = f s' → view f (g s) = view f (g s')

theorem view_andThen {f : State → State} {g : State → Result} {r r' : Result} (results : view f r = view f r')
    (hg : Respects f g) : view f (andThen r g) = view f (andThen r' g) := by
  cases r with
  | next s =>
    cases r' with
    | next s' => exact hg s s' (Host.Outcome.next.inj results)
    | fault e => cases results
    | refused e => cases results
  | fault e => cases r' <;> cases results; rfl
  | refused e => cases r' <;> cases results; rfl

theorem Respects.andThen {f : State → State} {g h : State → Result} (hg : Respects f g) (hh : Respects f h) :
    Respects f fun s => andThen (g s) h :=
  fun s s' alike => view_andThen (hg s s' alike) hh

/-- A view that hides nothing of what the block itself goes by: the updates and readings of the command sequencer pass
through it, and no line of a command reads the hidden part. -/
structure Hides (f : State → State) : Prop where
  setInflight (s : State) (ops : List Micro) : f (s.setInflight ops) = (f s).setInflight ops
  setBusy (s : State) (b : Bool) : f (s.setBusy b) = (f s).setBusy b
  board (s : State) : (f s).board = s.board
  phase (s : State) : (f s).phase = s.phase
  busy (s : State) : (f s).busy = s.busy
  inflight (s : State) : (f s).inflight = s.inflight
  perform (op : Micro) (s : State) : view f (perform op (f s)) = view f (perform op s)

section
variable {f : State → State} (hf : Hides f)
include hf

theorem Hides.respects_perform (op : Micro) : Respects f (Machine.perform op) := by
  intro s s' alike
  rw [← hf.perform op s, alike, hf.perform]

theorem Hides.respects_runLines (ops : List Micro) : Respects f (runLines ops) := by
  induction ops with
  | nil =>
    intro s s' alike
    simp [view, hf.setBusy, hf.setInflight, alike]
  | cons op rest ih =>
    intro s s' alike
    exact (hf.respects_perform op).andThen ih (s.setInflight rest) (s'.setInflight rest)
      (by rw [hf.setInflight, hf.setInflight, alike])

theorem Hides.respects_settle : Respects f settle := by
  intro s s' alike
  have hbusy : s.busy = s'.busy := by rw [← hf.busy s, alike, hf.busy]
  have hinflight : s.inflight = s'.inflight := by rw [← hf.inflight s, alike, hf.inflight]
  unfold settle
  rw [hbusy, hinflight]
  split
  · exact hf.respects_runLines _ s s' alike
  · simp [view, alike]

/-- A refusal goes by the phase and the operands, which are not hidden. -/
theorem Hides.commandRefusal (i : Instr) (s : State) : commandRefusal i (f s) = commandRefusal i s := by
  cases i <;> simp only [Machine.commandRefusal, neverRefused, pairRefusal, needsReady, hf.phase]

/-- What is hidden from the lines of commands is hidden from every command, at a busy block too. -/
theorem Hides.respects_exec (i : Instr) : Respects f (exec i) := by
  intro s s' alike
  rw [exec_eq_issue, exec_eq_issue, issue, issue]
  refine view_andThen (hf.respects_settle s s' alike) fun u u' alike => ?_
  have refusal : Machine.commandRefusal i u = Machine.commandRefusal i u' := by
    rw [← hf.commandRefusal, alike, hf.commandRefusal]
  have board : u.board = u'.board := by rw [← hf.board u, alike, hf.board]
  rw [refusal, board]
  split
  · rfl
  · rw [settle_accept, settle_accept]
    exact hf.respects_runLines _ _ _ (by rw [hf.setBusy, hf.setBusy, alike])

end

/-! ### Lines on the pins

What is hidden from the device's reaction is hidden from every line that writes or configures a pin: such a line goes by
the pins, `REG` and `SEQ`. -/

section
variable {f : State → State} (pins : ∀ s, (f s).pins = s.pins)
include pins

theorem view_pinConfig (emit : ∀ s e, f ((f s).emit e) = f (s.emit e))
    (config : ∀ s p, f (configLevel p ((f s).emit (.cfg p))) = f (configLevel p (s.emit (.cfg p)))) (p : Pin)
    (s : State) : view f (perform (.pinConfig p) (f s)) = view f (perform (.pinConfig p) s) := by
  simp only [perform, view, andThen_next, pinConfig, pins]
  split
  · rw [config]
  · rw [emit]

variable (write : ∀ s e p v, f ((s.emit e).setPin p v) = ((f s).emit e).setPin p v)
  (device : ∀ old p l s, f (env old p l (f s)) = f (env old p l s))
include write device

theorem view_pinWrite (p : Pin) (l : Level) (s : State) :
    view f (pinWrite p l (f s)) = view f (pinWrite p l s) := by
  unfold pinWrite
  rw [pins]
  split
  · rfl
  · simp only [view, andThen_next]
    rw [← write, device]

theorem view_frameWrite (reg : ∀ s, (f s).reg = s.reg) (seq : ∀ s, (f s).seq = s.seq)
    (setSeq : ∀ s k, f (s.setSeq k) = (f s).setSeq k) (s : State) :
    view f (frameWrite (f s)) = view f (frameWrite s) := by
  unfold frameWrite
  rw [reg, seq]
  split
  · rfl
  · refine view_andThen (view_pinWrite pins write device _ _ s) fun u u' alike => ?_
    simp only [view, andThen_next, setSeq, alike]

end

/-! ### The device and the duties -/

/-- The reaction of the device is seen through a view as its two effects are: the shift (R39) and the copy (R40). -/
theorem env_seen {f : State → State} (again : ∀ s, f (f s) = f s)
    (shift : ∀ s, f (shiftStage (f s)) = f (shiftStage s))
    (copy : ∀ s, f ((f s).setOut (f s).sr.toByte) = f (s.setOut s.sr.toByte)) (old : PinState) (p : Pin) (l : Level)
    (s : State) : f (env old p l (f s)) = f (env old p l s) := by
  cases p with
  | latch =>
    rw [env, env]
    split
    · exact copy s
    · exact again s
  | clock =>
    rw [env, env]
    split
    · exact shift s
    · exact again s
  | data => exact again s
  | enableN => exact again s

theorem shiftStage_hideDevice (s : State) : (shiftStage s.hideDevice).hideDevice = (shiftStage s).hideDevice := by
  cases data : s.pins.data <;> simp [shiftStage, State.hideDevice, data, State.setSr, State.drawn]

theorem shiftStage_hideDuty (s : State) : (shiftStage s.hideDuty).hideDuty = (shiftStage s).hideDuty := by
  cases data : s.pins.data <;> simp [shiftStage, State.hideDuty, data, State.setSr, State.drawn]

theorem hidesDevice : Hides State.hideDevice where
  setInflight _ _ := rfl
  setBusy _ _ := rfl
  board _ := rfl
  phase _ := rfl
  busy _ := rfl
  inflight _ := rfl
  perform op s := by
    have pins : ∀ s : State, s.hideDevice.pins = s.pins := fun _ => rfl
    have device := env_seen (f := State.hideDevice) (fun _ => rfl) shiftStage_hideDevice (fun _ => rfl)
    cases op with
    | pinConfig p => exact view_pinConfig pins (fun _ _ => rfl) (fun _ p => by cases p <;> rfl) p s
    | frameWrite =>
      exact view_frameWrite pins (fun _ _ _ _ => rfl) device (fun _ => rfl) (fun _ => rfl) (fun _ _ => rfl) s
    | pinWrite p l => exact view_pinWrite pins (fun _ _ _ _ => rfl) device p l s
    | _ => rfl

theorem hidesDuty : Hides State.hideDuty where
  setInflight _ _ := rfl
  setBusy _ _ := rfl
  board _ := rfl
  phase _ := rfl
  busy _ := rfl
  inflight _ := rfl
  perform op s := by
    have pins : ∀ s : State, s.hideDuty.pins = s.pins := fun _ => rfl
    have device := env_seen (f := State.hideDuty) (fun _ => rfl) shiftStage_hideDuty (fun _ => rfl)
    cases op with
    | pinConfig p => exact view_pinConfig pins (fun _ _ => rfl) (fun _ p => by cases p <;> rfl) p s
    | frameWrite =>
      exact view_frameWrite pins (fun _ _ _ _ => rfl) device (fun _ => rfl) (fun _ => rfl) (fun _ _ => rfl) s
    | pinWrite p l => exact view_pinWrite pins (fun _ _ _ _ => rfl) device p l s
    | _ => rfl

/-- Settles O29: no line of a command reads the device or the duties, so no command does. -/
theorem deviceAndDutyAreNeverReadBack : Obligations.DeviceAndDutyAreNeverReadBack :=
  fun s s' i => ⟨hidesDevice.respects_exec i s s', hidesDuty.respects_exec i s s'⟩

end Sys2Proof.Machine
end

section
/-! PROOFS. The block between commands: which commands an idle block refuses (R92, R93), what the others leave (R15,
R42, R74, R94), and the invariant along the steps (R13, R16, R20). -/

namespace Sys2Proof.Machine

/-! ### Refusals (R92, R93) -/

theorem pairRefusal_eq_some {bitA bitB : Pos} {s : State} {reason : Refusal} :
    pairRefusal bitA bitB s = some reason ↔
      (reason = .notConstructed ∧ s.phase = .off) ∨ (reason = .sameBit ∧ s.phase = .ready ∧ bitA = bitB) := by
  cases hp : s.phase
  · simp [pairRefusal_off hp, eq_comm]
  · by_cases same : bitA = bitB
    · subst same
      simp [pairRefusal_same_bit hp, eq_comm]
    · simp [pairRefusal_eq_none.2 ⟨hp, same⟩, same]

theorem needsReady_eq_some {s : State} {reason : Refusal} :
    needsReady s = some reason ↔ reason = .notConstructed ∧ s.phase = .off := by
  cases hp : s.phase
  · simp [needsReady_off hp, eq_comm]
  · simp [needsReady_eq_none.2 hp]

/-- The reasons to refuse a command are the closed list (R93). -/
theorem commandRefusal_eq_some {i : Instr} {s : State} {reason : Refusal} :
    commandRefusal i s = some reason ↔
      (reason = .notConstructed ∧ s.phase = .off ∧ i.isNew = false) ∨
      (reason = .sameBit ∧ s.phase = .ready ∧ i.wellFormed = false) := by
  cases i with
  | new maxspeed => simp [commandRefusal, neverRefused, Instr.isNew, Instr.wellFormed]
  | setPair bitA valueA bitB valueB =>
    simp [commandRefusal, pairRefusal_eq_some, Instr.isNew, Instr.wellFormed]
  | _ => simp [commandRefusal, needsReady_eq_some, Instr.isNew, Instr.wellFormed]

/-- An idle block answers a refusal exactly when it has a reason to refuse: no line of a command is ever refused. -/
theorem exec_refused_iff {i : Instr} {s : State} {reason : Refusal} (hb : s.busy = false) :
    exec i s = .refused reason ↔ commandRefusal i s = some reason := by
  refine ⟨fun h => ?_, exec_refused hb⟩
  cases hr : commandRefusal i s with
  | none =>
    rw [exec_idle hb hr] at h
    exact absurd h (runLines_not_refused _ _ _)
  | some other =>
    rw [exec_refused hb hr] at h
    rw [Host.Outcome.refused.inj h]

/-- Settles O22: an idle block refuses for the reasons of `commandRefusal`, which are the closed list. -/
theorem refusalsAreExactlyTheClosedList : Obligations.RefusalsAreExactlyTheClosedList :=
  fun _ _ _ hb => (exec_refused_iff hb).trans commandRefusal_eq_some

/-! ### The invariant -/

/-- A completed command keeps the invariant and leaves the block constructed. -/
theorem State.Inv.exec {i : Instr} {s t : State} (hs : s.Inv) (h : Machine.exec i s = .next t) :
    t.Inv ∧ t.phase = .ready := by
  obtain ⟨accepted, -⟩ := exec_idle_next hs.idle h
  obtain ⟨u, hu, inv, ready⟩ := exec_completes hs accepted
  obtain rfl : u = t := Host.Outcome.next.inj (hu.symm.trans h)
  exact ⟨inv, ready⟩

/-- The invariant says nothing of the command port. -/
theorem State.Inv.setPending {s : State} (hs : s.Inv) (ws : List Word) : (s.setPending ws).Inv :=
  ⟨hs.idle, hs.nothingInFlight, hs.seqIdle, hs.off, hs.readyPins, hs.mirror⟩

/-- Settles O40: a step waits, which changes nothing of an idle block, or runs one command, which keeps the
invariant. -/
theorem everyStepKeepsTheInvariant : Obligations.EveryStepKeepsTheInvariant := by
  intro s t hs h
  rcases step_next h with ⟨-, settled⟩ | ⟨w, rest, i, -, -, ran⟩
  · rw [settle_idle hs.idle] at settled
    exact Host.Outcome.next.inj settled ▸ hs
  · exact ((hs.setPending rest).exec ran).1

/-- Settles O39: at power-on the block is idle, in `OFF`, with every pin undriven. -/
theorem invariantHoldsAtPowerOn : Obligations.InvariantHoldsAtPowerOn where
  idle := rfl
  nothingInFlight := rfl
  seqIdle := rfl
  off _ := rfl
  readyPins := nofun
  mirror := nofun

/-- Settles O38: each value is the one `State.reset` has by definition. -/
theorem powerOnState : Obligations.PowerOnState :=
  ⟨rfl, rfl, rfl, fun p => by cases p <;> rfl, rfl, rfl, rfl, rfl⟩

/-! ### What the invariant says of the outputs -/

theorem State.Inv.outputs_ready {s : State} (hs : s.Inv) (hp : s.phase = .ready) : s.outputs = some s.reg := by
  obtain ⟨-, hout⟩ := hs.mirror hp
  rw [State.outputs, hs.readyPins hp, if_pos rfl, hout]

theorem State.Inv.outputs_off {s : State} (hs : s.Inv) (hp : s.phase = .off) : s.outputs = none := by
  rw [State.outputs, hs.off hp]
  exact if_neg nofun

/-- Settles O41: a completed command leaves a constructed block that meets the invariant, whose outputs show `REG`. -/
theorem outputsShowTheRegisterAfterEveryCommand : Obligations.OutputsShowTheRegisterAfterEveryCommand := by
  intro s t i hs
  refine ⟨fun h => ?_, hs.outputs_off⟩
  obtain ⟨inv, ready⟩ := hs.exec h
  exact inv.outputs_ready ready

/-- Settles O23: a command that is not refused completes, and what the obligation asks of the state after it is in the
invariant of a constructed block. -/
theorem everyCommandNotRefusedCompletesInFull : Obligations.EveryCommandNotRefusedCompletesInFull := by
  intro s i hs
  cases hr : commandRefusal i s with
  | some reason => exact .inl ⟨reason, exec_refused hs.idle hr⟩
  | none =>
    obtain ⟨t, ht, inv, ready⟩ := exec_completes hs hr
    obtain ⟨hsr, hout⟩ := inv.mirror ready
    have latch : t.pins.latch = .driven true := by rw [inv.readyPins ready]
    have stage : t.sr.toByte = t.reg := by rw [hsr, Stage.toByte_ofByte]
    exact .inr ⟨t, ht, inv.idle, inv.nothingInFlight, inv.seqIdle, latch, hout, stage⟩

end Sys2Proof.Machine
end

section
/-! PROOFS. The pair table: the owner of a position (R37), and the exchange of slots 3 and 4 (R55, R56). -/

namespace Sys2Proof

/-- Eight distinct positions are all of them. -/
theorem mem_of_nodup_positions {l : List Pos} (distinct : l.Nodup) (eight : l.length = 8) (k : Pos) : k ∈ l := by
  have all : l.toFinset = Finset.univ := by
    rw [← Finset.card_eq_iff_eq_univ, List.toFinset_card_of_nodup distinct, eight, Fintype.card_fin]
  rw [← List.mem_toFinset, all]
  exact Finset.mem_univ k

theorem Quad.mem_positions {q : Quad BitPair} {k : Pos} (h : k ∈ q.positions) :
    ∃ s, (q.get s).bitA = k ∨ (q.get s).bitB = k := by
  simp only [Quad.positions, List.mem_cons, List.not_mem_nil, or_false] at h
  rcases h with h | h | h | h | h | h | h | h
  · exact ⟨.one, .inl h.symm⟩
  · exact ⟨.one, .inr h.symm⟩
  · exact ⟨.two, .inl h.symm⟩
  · exact ⟨.two, .inr h.symm⟩
  · exact ⟨.three, .inl h.symm⟩
  · exact ⟨.three, .inr h.symm⟩
  · exact ⟨.four, .inl h.symm⟩
  · exact ⟨.four, .inr h.symm⟩

/-- Every position is an A bit or a B bit of some slot. -/
theorem Board.exists_owner (b : Board) (k : Pos) : ∃ s, (b.pair s).bitA = k ∨ (b.pair s).bitB = k :=
  Quad.mem_positions (mem_of_nodup_positions (b.row_positions_nodup b.variant) rfl k)

/-- Slots that share a position are one slot. -/
theorem Board.owner_unique (b : Board) {s t : Slot} {k : Pos} (hs : (b.pair s).bitA = k ∨ (b.pair s).bitB = k)
    (ht : (b.pair t).bitA = k ∨ (b.pair t).bitB = k) : t = s := by
  rcases hs with hs | hs <;> rcases ht with ht | ht
  · exact b.pair_bitA_inj (ht.trans hs.symm)
  · exact absurd (hs.trans ht.symm) (b.pair_bitA_ne_bitB s t)
  · exact absurd (ht.trans hs.symm) (b.pair_bitA_ne_bitB t s)
  · exact b.pair_bitB_inj (ht.trans hs.symm)

/-- Settles O8: the eight positions of a row are distinct, so they are all of them, and no two slots share one. -/
theorem everyPositionHasOneOwner : Obligations.EveryPositionHasOneOwner := by
  intro b k
  obtain ⟨s, owns⟩ := b.exists_owner k
  exact ⟨s, owns, fun ⟨hA, hB⟩ => b.pair_bitA_ne_bitB s s (hA.trans hB.symm), fun t ht => b.owner_unique owns ht⟩

/-- Settles O9: a slot's pair is the other variant's pair of the exchanged slot, and slots 3 and 4 are moved. -/
theorem variantsExchangeSlots3And4 : Obligations.VariantsExchangeSlots3And4 := by
  intro a b htable hA hB
  have hvariant : a.variant ≠ b.variant := by
    rw [hA, hB]
    nofun
  have entry := Board.pair_underOtherVariant htable hvariant
  refine ⟨entry .one, entry .two, entry .three, entry .four, fun s hs => ?_⟩
  refine Board.pair_disjoint_underOtherVariant htable hvariant ?_
  rcases hs with rfl | rfl <;> decide

end Sys2Proof
end

section
/-! PROOFS. A transmission line by line: the state after each write (R15, R33, R39, R70), the outputs meanwhile (R34,
R43), and the state after the frame (R42, R74). -/

namespace Sys2Proof.Machine

/-! ### The numbered writes (R70) -/

theorem frameWriteAt_zero (r : Byte) : frameWriteAt r 0 = some (.latch, false) := rfl

theorem frameWriteAt_data (r : Byte) {j : Nat} (hj : j < 8) :
    frameWriteAt r (3 * j + 1) = some (.data, r.getLsbD (7 - j)) := by
  interval_cases j <;> rfl

theorem frameWriteAt_clock_high (r : Byte) {j : Nat} (hj : j < 8) :
    frameWriteAt r (3 * j + 2) = some (.clock, true) := by
  interval_cases j <;> rfl

theorem frameWriteAt_clock_low (r : Byte) {j : Nat} (hj : j < 8) :
    frameWriteAt r (3 * j + 3) = some (.clock, false) := by
  interval_cases j <;> rfl

theorem frameWriteAt_last (r : Byte) : frameWriteAt r 25 = some (.latch, true) := rfl

/-- The events of a frame are its numbered writes, in order. -/
theorem frameEvents_getElem? {r : Byte} {k : Nat} {p : Pin} {l : Level} (h : frameWriteAt r k = some (p, l)) :
    (frameEvents r)[k]? = some (.write p l) := by
  have inFrame : k < 26 := by
    by_contra beyond
    have none_left : frameWriteAt r k = none := by
      simp [frameWriteAt, show k ≠ 0 by omega, show ¬ k < 25 by omega, show k ≠ 25 by omega]
    simp [none_left] at h
  interval_cases k <;> cases h <;> rfl

theorem frameEvents_take_succ {r : Byte} {k : Nat} {p : Pin} {l : Level} (h : frameWriteAt r k = some (p, l)) :
    (frameEvents r).take (k + 1) = (frameEvents r).take k ++ [.write p l] := by
  rw [List.take_add_one, frameEvents_getElem? h, Option.toList_some]

theorem frameWriteAt_some (r : Byte) {k : Nat} (hk : k < 26) : ∃ p l, frameWriteAt r k = some (p, l) := by
  interval_cases k <;> exact ⟨_, _, rfl⟩

/-! ### The state inside a transmission -/

/-- The state inside a transmission from `s`, after the first `k` of its 26 writes, before the last of them: 3 writes in
each bit cell after the opening of the frame, so `k / 3` bits have entered the shift stage. -/
def State.sending (s : State) (k : Nat) : State :=
  { s with
    busy := true
    seq := BitVec.ofNat 5 k
    inflight := List.replicate (26 - k) .frameWrite
    pins :=
      { latch := if k = 0 then s.pins.latch else .driven false
        data := if k < 2 then s.pins.data else .driven (s.reg.getLsbD (7 - (k - 2) / 3))
        clock := .driven (decide (k ≠ 0 ∧ k % 3 = 0))
        enableN := s.pins.enableN }
    sr := ((frameLevels s.reg).take (k / 3)).foldl shiftIn s.sr
    trace := s.trace ++ (frameEvents s.reg).take k }

theorem advanceBy_one (s : State) : advanceBy 1 s = advance s := andThen_same (advance s)

/-- The first line of a transmission starts the count and writes nothing (R70). -/
theorem advanceBy_one_transmitLines {s : State} (h : s.frameReady) :
    advanceBy 1 (accept transmitLines s) = .next (s.sending 0) := by
  obtain ⟨-, -, -, clock⟩ := h
  simp [advanceBy_one, transmitLines, advance_accept_cons, perform, State.sending, State.setSeq, State.setInflight,
    State.setBusy, ← clock]

theorem frameWrite_driven {s : State} {p : Pin} {l old : Level} (hw : frameWriteAt s.reg s.seq.toNat = some (p, l))
    (hp : s.pins.get p = .driven old) :
    frameWrite s =
      .next ((env (.driven old) p l ((s.emit (.write p l)).setPin p (.driven l))).setSeq (nextSeq s.seq)) := by
  simp [frameWrite, hw, pinWrite, hp]

/-- The next line of a transmission is its next write, followed by the device's reaction to it. -/
theorem advance_sending {s : State} {k : Nat} {p : Pin} {l old : Level} (hk : k < 26)
    (hw : frameWriteAt s.reg k = some (p, l)) (hp : (s.sending k).pins.get p = .driven old) :
    advance (s.sending k) = .next ((env (.driven old) p l
      ((((s.sending k).setInflight (List.replicate (25 - k) .frameWrite)).emit (.write p l)).setPin p
        (.driven l))).setSeq (nextSeq (BitVec.ofNat 5 k))) := by
  have lines : (s.sending k).inflight = .frameWrite :: List.replicate (25 - k) .frameWrite := by
    rw [← List.replicate_succ]
    exact congrArg (List.replicate · _) (by omega)
  have number : (s.sending k).seq.toNat = k := Nat.mod_eq_of_lt (by omega)
  rw [advance, lines]
  refine frameWrite_driven ?_ hp
  rw [State.setInflight_seq, number]
  exact hw

/-- A write of the frame but the last, apart from the device's reaction: the pin, the number and the event. -/
theorem sending_write {s : State} {k : Nat} {p : Pin} {l : Level} (hk : k < 25)
    (hw : frameWriteAt s.reg k = some (p, l)) :
    ((((s.sending k).setInflight (List.replicate (25 - k) .frameWrite)).emit (.write p l)).setPin p
        (.driven l)).setSeq (nextSeq (BitVec.ofNat 5 k)) =
      { s.sending (k + 1) with pins := (s.sending k).pins.set p (.driven l), sr := (s.sending k).sr } := by
  have number : nextSeq (BitVec.ofNat 5 k) = BitVec.ofNat 5 (k + 1) := by interval_cases k <;> rfl
  have left : 25 - k = 26 - (k + 1) := by omega
  have events := frameEvents_take_succ hw
  simp only [State.sending, State.setInflight, State.emit, State.setPin, State.setSeq, number, left, events,
    List.append_assoc]

theorem exists_driven {p : PinState} (h : p ≠ .z) : ∃ old, p = .driven old := by
  cases p with
  | z => exact absurd rfl h
  | driven old => exact ⟨old, rfl⟩

/-- The opening of the frame lowers `LATCH`. -/
theorem advance_sending_zero {s : State} (h : s.frameReady) : advance (s.sending 0) = .next (s.sending 1) := by
  obtain ⟨latch, -⟩ := h
  obtain ⟨old, found⟩ := exists_driven latch
  rw [advance_sending (by decide) (frameWriteAt_zero s.reg) found, env]
  exact congrArg Host.Outcome.next (sending_write (by decide) (frameWriteAt_zero s.reg))

/-- The first write of bit cell `j` puts the bit on `DATA`. -/
theorem advance_sending_data {s : State} (h : s.frameReady) {j : Nat} (hj : j < 8) :
    advance (s.sending (3 * j + 1)) = .next (s.sending (3 * j + 2)) := by
  obtain ⟨-, data, -⟩ := h
  obtain ⟨old, found⟩ : ∃ old, (s.sending (3 * j + 1)).pins.get .data = .driven old := by
    apply exists_driven
    simp only [State.sending, Pins.get]
    split
    · exact data
    · nofun
  rw [advance_sending (by omega) (frameWriteAt_data s.reg hj) found, env,
    sending_write (by omega) (frameWriteAt_data s.reg hj)]
  simp [State.sending, Pins.set, show (3 * j + 2) / 3 = j by omega, show (3 * j + 1) / 3 = j by omega]

/-- A rising edge of `CLOCK` shifts the level of `DATA` in (R39). -/
theorem env_clock_rise {s : State} {b : Level} (h : s.pins.data = .driven b) :
    env (.driven false) .clock true s = s.setSr (shiftIn s.sr b) := by
  have rise : risingEdge (.driven false) true = true := rfl
  rw [env, if_pos rise, shiftStage, h]

/-- The bits of a frame in the order they are sent (R31). -/
theorem frameLevels_take_succ (r : Byte) {j : Nat} (hj : j < 8) :
    (frameLevels r).take (j + 1) = (frameLevels r).take j ++ [r.getLsbD (7 - j)] := by
  rw [List.take_add_one, frameLevels_eq_map, List.getElem?_map, List.getElem?_range hj]
  rfl

/-- The second write of bit cell `j` raises `CLOCK`, and the device takes the bit in (R39). -/
theorem advance_sending_clock_high {s : State} {j : Nat} (hj : j < 8) :
    advance (s.sending (3 * j + 2)) = .next (s.sending (3 * j + 3)) := by
  have low : (s.sending (3 * j + 2)).pins.get .clock = .driven false := by
    simp [State.sending, Pins.get]
  have bit : (s.sending (3 * j + 2)).pins.data = .driven (s.reg.getLsbD (7 - j)) := by
    simp [State.sending]
  rw [advance_sending (by omega) (frameWriteAt_clock_high s.reg hj) low, env_clock_rise (by exact bit)]
  refine congrArg Host.Outcome.next ((congrArg (State.setSr · _)
    (sending_write (by omega) (frameWriteAt_clock_high s.reg hj))).trans ?_)
  simp [State.sending, State.setSr, Pins.set, frameLevels_take_succ s.reg hj, show (3 * j + 1) / 3 = j by omega,
    show (3 * j + 2) / 3 = j by omega]

/-- The third write of bit cell `j` lowers `CLOCK`. -/
theorem advance_sending_clock_low {s : State} {j : Nat} (hj : j < 8) :
    advance (s.sending (3 * j + 3)) = .next (s.sending (3 * j + 4)) := by
  have high : (s.sending (3 * j + 3)).pins.get .clock = .driven true := by
    simp [State.sending, Pins.get]
  rw [advance_sending (by omega) (frameWriteAt_clock_low s.reg hj) high, env]
  refine congrArg Host.Outcome.next ((sending_write (by omega) (frameWriteAt_clock_low s.reg hj)).trans ?_)
  simp [State.sending, Pins.set, show (3 * j + 1) / 3 = j by omega, show (3 * j + 2) / 3 = j by omega,
    show (3 * j + 4) / 3 = j + 1 by omega]

/-- Every write of the frame but the last leads from one of these states to the next. -/
theorem advance_sending_succ {s : State} (h : s.frameReady) {k : Nat} (hk : k < 25) :
    advance (s.sending k) = .next (s.sending (k + 1)) := by
  have place : k = 0 ∨ ∃ j < 8, k = 3 * j + 1 ∨ k = 3 * j + 2 ∨ k = 3 * j + 3 := by
    rcases Nat.eq_zero_or_pos k with h0 | h0
    · exact .inl h0
    · exact .inr ⟨(k - 1) / 3, by omega, by omega⟩
  obtain rfl | ⟨j, hj, rfl | rfl | rfl⟩ := place
  · exact advance_sending_zero h
  · exact advance_sending_data h hj
  · exact advance_sending_clock_high hj
  · exact advance_sending_clock_low hj

/-- The last write raises `LATCH`, and the device takes the shift stage, which holds `REG`, to its outputs (R40,
R42). -/
theorem advance_sending_last (s : State) :
    advance (s.sending 25) = .next ((s.afterFrame s.reg).setBusy true) := by
  have low : (s.sending 25).pins.get .latch = .driven false := rfl
  have stage : ((frameLevels s.reg).take 8).foldl shiftIn s.sr = Stage.ofByte s.reg := rfl
  have events : frameEvents s.reg = (frameEvents s.reg).take 25 ++ [.write .latch true] := rfl
  have number : nextSeq 25#5 = 31#5 := rfl
  rw [advance_sending (by decide) (frameWriteAt_last s.reg) low, State.afterFrame, events]
  simp [State.sending, env, risingEdge, stage, number, Pins.set, State.setOut, State.setSeq, State.setPin, State.emit,
    State.setInflight, State.setBusy]

/-- The state after a line of a transmission, the first of which starts the count (R70). -/
theorem advanceBy_transmitLines {s : State} (h : s.frameReady) {k : Nat} (hk : k ≤ 25) :
    advanceBy (k + 1) (accept transmitLines s) = .next (s.sending k) := by
  induction k with
  | zero => exact advanceBy_one_transmitLines h
  | succ k ih =>
    rw [advanceBy_add, ih (by omega), andThen_next, advanceBy_one]
    exact advance_sending_succ h (by omega)

/-! ### The sequence counter (R15) -/

/-- Settles O15: the write numbered `n` leads from `s.sending n`, where `SEQ` is `n`, to `s.sending (n + 1)`, or to the
state after the frame. -/
theorem sequenceCounterNumbersEveryWrite : Obligations.SequenceCounterNumbersEveryWrite := by
  intro s n h hn
  obtain ⟨p, l, hw⟩ := frameWriteAt_some s.reg hn
  have line := advanceBy_transmitLines h (Nat.le_of_lt_succ hn)
  have number : (s.sending n).seq.toNat = n := Nat.mod_eq_of_lt (by omega)
  have event := frameEvents_getElem? hw
  have trace : s.trace ++ (frameEvents s.reg).take (n + 1) = (s.sending n).trace ++ [.write p l] := by
    rw [frameEvents_take_succ hw, ← List.append_assoc]
    rfl
  obtain more | rfl : n < 25 ∨ n = 25 := by omega
  · refine ⟨_, _, _, line, number, event, advance_sending_succ h more, trace, ?_⟩
    rw [if_neg (Nat.ne_of_lt more)]
    exact Nat.mod_eq_of_lt (by omega)
  · exact ⟨_, _, _, line, number, event, advance_sending_last s, trace, rfl⟩

/-! ### The shift stage and the outputs meanwhile (R34) -/

theorem toByte_shiftIn (v : Stage) (b : Level) :
    (shiftIn v b).toByte = v.toByte <<< 1 ||| (BitVec.ofBool b).setWidth 8 := by
  obtain ⟨q0, q1, q2, q3, q4, q5, q6, q7⟩ := v
  revert q0 q1 q2 q3 q4 q5 q6 q7 b
  decide

/-- After `c` bit cells the shift stage holds its old contents moved up and the first `c` bits of the byte. -/
theorem toByte_foldl_shiftIn (v : Stage) (r : Byte) {c : Nat} (hc : c ≤ 8) :
    (((frameLevels r).take c).foldl shiftIn v).toByte = v.toByte <<< c ||| r >>> (8 - c) := by
  induction c with
  | zero => simp [BitVec.ushiftRight_eq_zero]
  | succ c ih =>
    rw [frameLevels_take_succ r hc, List.foldl_append, List.foldl_cons, List.foldl_nil, toByte_shiftIn, ih (by omega)]
    apply BitVec.eq_of_getLsbD_eq
    intro i hi
    have lowest : 8 - (c + 1) = 7 - c := by omega
    rcases i with _ | i
    · simp [lowest]
    · have moved : 8 - c + i = 7 - c + (i + 1) := by omega
      simp only [BitVec.getLsbD_or, BitVec.getLsbD_shiftLeft, BitVec.getLsbD_ushiftRight, BitVec.getLsbD_setWidth,
        BitVec.getLsbD_ofBool, lowest, moved, hi, decide_true, Bool.true_and, Nat.add_sub_add_right, Nat.add_sub_cancel]
      simp [Nat.lt_of_succ_lt hi]

/-- Settles O14: inside the transmission `OUT` and `ENABLE_N` are those of `s`, the shift stage is by
`toByte_foldl_shiftIn`, and the last line copies it, with all of `REG` in it, to `OUT`. -/
theorem outputsTakeTheNewByteAsAWhole : Obligations.OutputsTakeTheNewByteAsAWhole := by
  intro s h
  refine ⟨fun n hn => ?_, fun c hc => ?_, ?_⟩
  · cases n with
    | zero => exact ⟨_, rfl, rfl, rfl⟩
    | succ k => exact ⟨_, advanceBy_transmitLines h (Nat.le_of_succ_le_succ hn), rfl, rfl⟩
  · have line : 2 + 3 * c = 3 * c + 1 + 1 := by omega
    have cells : (3 * c + 1) / 3 = c := by omega
    refine ⟨s.sending (3 * c + 1), line ▸ advanceBy_transmitLines h (by omega), ?_⟩
    rw [State.sending, cells]
    exact toByte_foldl_shiftIn s.sr s.reg hc
  · refine ⟨(s.afterFrame s.reg).setBusy true, ?_, rfl, rfl⟩
    rw [advanceBy_add 26 1, advanceBy_transmitLines h (Nat.le_refl 25), andThen_next, advanceBy_one,
      advance_sending_last]

/-! ### The whole frame (R42, R70, R74) -/

/-- Settles O13: a transmission ends in `afterFrame`, where the next one may start. -/
theorem transmissionMakesTheDeviceMirrorTheRegister : Obligations.TransmissionMakesTheDeviceMirrorTheRegister :=
  fun s h => ⟨transmit_frameReady h, h.afterFrame s.reg, Stage.toByte_ofByte s.reg, frameEvents_length s.reg⟩

end Sys2Proof.Machine
end

section
/-! PROOFS. The commands: `REGINIT`, `SETSPEED` and `NEW` in both phases (R71, R80, R84), the trace of every command
(R76, R81), and who writes `ENABLE_N`, the duties and the tables (R14, R20, R21). -/

namespace Sys2Proof.Machine

/-! ### Three commands in both phases -/

/-- Settles O17: an idle block in `READY` runs the clear and its frame; in `OFF` it refuses. -/
theorem regInitClearsAndTransmits : Obligations.RegInitClearsAndTransmits :=
  fun _ hb => ⟨exec_regInit hb, fun hp => exec_refused hb (needsReady_off hp)⟩

/-- Settles O20: the one line of `SETSPEED` writes the duty of its slot; in `OFF` the block refuses. -/
theorem setSpeedWritesOneDuty : Obligations.SetSpeedWritesOneDuty := by
  intro s motor speed hb
  refine ⟨fun hp => ⟨s.duty.set (slotOf motor) speed, ?_, ?_, fun t ht => ?_⟩,
    fun hp => exec_refused hb (needsReady_off hp)⟩
  · rw [exec_setSpeed hb hp, ← hb]
  · rw [Quad.get_set, if_pos rfl]
  · rw [Quad.get_set, if_neg ht]

/-- Settles O21: a `NEW` ends in `afterNew`, in which `BUSY` is what it was, 0. -/
theorem newConstructsTheBlock : Obligations.NewConstructsTheBlock := by
  intro s maxspeed hb hc
  obtain ⟨draws, e⟩ := exec_new maxspeed hb hc
  exact ⟨draws, by rw [e, State.afterNew, ← hb]⟩

/-! ### The trace of a command (R76, R81, R112) -/

theorem exec_trace {i : Instr} {s t : State} (hs : s.Inv) (h : exec i s = .next t) :
    t.trace = s.trace ++ commandEvents s.board s.reg i := by
  obtain ⟨accepted, -⟩ := exec_idle_next hs.idle h
  cases i with
  | new maxspeed =>
    obtain ⟨draws, e⟩ := exec_new maxspeed hs.idle hs.clock_not_high
    obtain rfl := Host.Outcome.next.inj (e.symm.trans h)
    cases maxspeed <;> simp [State.afterNew, commandEvents, Slot.all]
  | setDir motor dir =>
    have hp := needsReady_eq_none.1 accepted
    rw [exec_setDir hs.idle hp (hs.frameReady hp), regAfter_setDir] at h
    exact Host.Outcome.next.inj h ▸ rfl
  | setSpeed motor speed =>
    rw [exec_setSpeed hs.idle (needsReady_eq_none.1 accepted)] at h
    exact Host.Outcome.next.inj h ▸ rfl
  | regInit =>
    have hp := needsReady_eq_none.1 accepted
    rw [exec_regInit hs.idle hp (hs.frameReady hp)] at h
    exact Host.Outcome.next.inj h ▸ rfl
  | setPair bitA valueA bitB valueB =>
    obtain ⟨hp, hne⟩ := pairRefusal_eq_none.1 accepted
    rw [exec_setPair hs.idle hp (hs.frameReady hp) hne] at h
    exact Host.Outcome.next.inj h ▸ rfl

/-- A frame has 2 writes of `LATCH`, 8 of `DATA` and 16 of `CLOCK` (R76). -/
theorem frameEvents_countP (r : Byte) :
    (frameEvents r).countP (Event.writesPin .latch) = 2 ∧ (frameEvents r).countP (Event.writesPin .data) = 8 ∧
    (frameEvents r).countP (Event.writesPin .clock) = 16 :=
  ⟨rfl, rfl, rfl⟩

/-- What `NEW` does before and after its frame writes none of the three (R81). -/
theorem commandEvents_new_countP (b : Board) (r : Byte) (maxspeed : Bool) {p : Pin} (hp : p ≠ .enableN) :
    (commandEvents b r (.new maxspeed)).countP (Event.writesPin p) = (frameEvents 0#8).countP (Event.writesPin p) := by
  have config : configEvents.countP (Event.writesPin p) = 0 := by cases p <;> rfl
  have enable : [Event.write .enableN false].countP (Event.writesPin p) = 0 := by
    simp [Event.writesPin, hp.symm]
  have duties : (if maxspeed then Slot.all.map fun t => Event.pwm t 255#8 else []).countP (Event.writesPin p) = 0 := by
    cases maxspeed <;> rfl
  rw [commandEvents, List.countP_append, List.countP_append, List.countP_append, config, enable, duties, Nat.zero_add,
    Nat.add_zero]

/-- Settles O24: the added events are `commandEvents`, whose writes of the three pins are those of one frame. -/
theorem commandsEmitTheirTraceAndNothingElse : Obligations.CommandsEmitTheirTraceAndNothingElse := by
  intro s t i hs h
  refine ⟨commandEvents s.board s.reg i, exec_trace hs h, rfl, ?_, fun notSpeed => ?_⟩
  · cases i with
    | new maxspeed => cases maxspeed <;> rfl
    | _ => rfl
  · cases i with
    | new maxspeed =>
      rw [commandEvents_new_countP, commandEvents_new_countP, commandEvents_new_countP]
      · exact frameEvents_countP 0#8
      all_goals nofun
    | setSpeed motor speed => exact absurd rfl (notSpeed motor speed)
    | setDir motor dir => exact frameEvents_countP _
    | regInit => exact frameEvents_countP _
    | setPair bitA valueA bitB valueB => exact frameEvents_countP _

/-! ### Who writes `ENABLE_N` and the duties, from every idle state (R20, R21) -/

/-- Between two states the duties and `ENABLE_N` have been left alone, and `ENABLE_N` has not been written. -/
structure LeavesEnableAndDuty (s t : State) : Prop where
  duty : t.duty = s.duty
  enable : t.pins.enableN = s.pins.enableN
  events : ∃ events, t.trace = s.trace ++ events ∧ ∀ l, Event.write .enableN l ∉ events

theorem runLines_transmitLines_leaves {s t : State} (h : runLines transmitLines s = .next t) :
    LeavesEnableAndDuty s t := by
  obtain ⟨u, hu, -, -, -, duty, enable, events⟩ := runLines_transmit_frame (rest := []) (by simpa using h)
  obtain rfl := Host.Outcome.next.inj hu
  exact ⟨duty, enable, events⟩

theorem runLines_clearLines_leaves {s t : State} (h : runLines clearLines s = .next t) : LeavesEnableAndDuty s t := by
  rw [clearLines, runLines_cons, perform, andThen_next] at h
  obtain ⟨duty, enable, events⟩ := runLines_transmitLines_leaves h
  exact ⟨duty, enable, events⟩

theorem runLines_pairLines_leaves {s t : State} {bitA bitB : Pos} {valueA valueB : Bool}
    (h : runLines (pairLines bitA valueA bitB valueB) s = .next t) : LeavesEnableAndDuty s t := by
  rw [pairLines, runLines_cons, perform, andThen_next, runLines_cons, perform, andThen_next] at h
  obtain ⟨duty, enable, events⟩ := runLines_transmitLines_leaves h
  exact ⟨duty, enable, events⟩

/-- A completed command other than `NEW` and `SETSPEED` has sent a frame and left the rest alone. -/
theorem exec_leaves {i : Instr} {s t : State} (hb : s.busy = false) (h : exec i s = .next t) (notNew : i.isNew = false)
    (notSpeed : ∀ motor speed, i ≠ .setSpeed motor speed) : LeavesEnableAndDuty s t := by
  obtain ⟨-, ran⟩ := exec_idle_next hb h
  have idle : LeavesEnableAndDuty (s.setBusy true) t := by
    cases i with
    | new maxspeed => exact absurd notNew.symm Bool.false_ne_true
    | setSpeed motor speed => exact absurd rfl (notSpeed motor speed)
    | setDir motor dir => exact runLines_pairLines_leaves ran
    | regInit => exact runLines_clearLines_leaves ran
    | setPair bitA valueA bitB valueB => exact runLines_pairLines_leaves ran
  obtain ⟨duty, enable, events⟩ := idle
  exact ⟨duty, enable, events⟩

/-- A completed `NEW`, whatever state of the pins it found, has asserted the enable, once, and written the duties if it
was to. -/
theorem exec_new_next {maxspeed : Bool} {s t : State} (hb : s.busy = false) (h : exec (.new maxspeed) s = .next t) :
    t.pins.enableN = .driven false ∧
    t.duty = (if maxspeed then { one := 255#8, two := 255#8, three := 255#8, four := 255#8 } else s.duty) ∧
    ∃ before after : List Event, t.trace = s.trace ++ (before ++ Event.write .enableN false :: after) ∧
      ∀ l, Event.write .enableN l ∉ before ++ after := by
  obtain ⟨-, ran⟩ := exec_idle_next hb h
  obtain ⟨draws, config⟩ :=
    runLines_config (.clearReg :: (transmitLines ++ newClosingLines maxspeed)) (s.setBusy true)
  rw [commandLines, newLines_eq, config, runLines_cons, perform, andThen_next] at ran
  obtain ⟨u, closing, -, -, -, duty, enable, events, trace, none_written⟩ := runLines_transmit_frame ran
  obtain ⟨e, he⟩ := configured_driven (Config.draw s.draws) s.pins.enableN
  have driven : u.pins.enableN = .driven e := enable.trans he
  have upToFrame : u.trace = s.trace ++ configEvents ++ events := trace
  rw [runLines_newClosing _ _ (by simp [driven])] at closing
  obtain rfl := Host.Outcome.next.inj closing
  refine ⟨rfl, by rw [duty]; rfl, configEvents ++ events, _,
    by rw [upToFrame]; simp only [List.append_assoc]; rfl, fun l => ?_⟩
  cases maxspeed <;> simp [configEvents, Slot.all, none_written]

/-- A completed `SETSPEED` has done its one line. -/
theorem exec_setSpeed_next {motor speed : Byte} {s t : State} (hb : s.busy = false)
    (h : exec (.setSpeed motor speed) s = .next t) :
    t.duty = s.duty.set (slotOf motor) speed ∧ t.pins = s.pins ∧ t.trace = s.trace ++ [.pwm (slotOf motor) speed] := by
  obtain ⟨accepted, -⟩ := exec_idle_next hb h
  rw [exec_setSpeed hb (needsReady_eq_none.1 accepted)] at h
  obtain rfl := Host.Outcome.next.inj h
  exact ⟨rfl, rfl, rfl⟩

/-- Settles O26: only `NEW` has a line that writes `ENABLE_N`, after its frame and low. -/
theorem enableIsOnlyEverAsserted : Obligations.EnableIsOnlyEverAsserted := by
  intro s t i hb h
  cases i with
  | new maxspeed =>
    obtain ⟨enable, -, before, after, trace, none_written⟩ := exec_new_next hb h
    simp only [List.mem_append, not_or] at none_written
    refine ⟨_, trace, ?_, fun _ => ⟨enable, ?_⟩, nofun⟩
    · simp [none_written]
    · rw [List.count_append, List.count_cons_self, List.count_eq_zero.2 (none_written false).1,
        List.count_eq_zero.2 (none_written false).2]
  | setSpeed motor speed =>
    obtain ⟨-, pins, trace⟩ := exec_setSpeed_next hb h
    exact ⟨_, trace, by simp, nofun, fun _ => ⟨congrArg Pins.enableN pins, by simp⟩⟩
  | _ =>
    obtain ⟨-, enable, events, trace, none_written⟩ := exec_leaves hb h rfl nofun
    exact ⟨events, trace, none_written true, nofun, fun _ => ⟨enable, none_written false⟩⟩

/-- Settles O27: the duties after `NEW` and `SETSPEED` are given by their closing lines and their one line, and the
other commands leave them alone. -/
theorem dutyHasTwoWriters : Obligations.DutyHasTwoWriters := by
  intro s t i hb h m
  cases i with
  | new maxspeed =>
    obtain ⟨-, duty, -⟩ := exec_new_next hb h
    cases maxspeed
    · exact congrArg (Quad.get · m) duty
    · rw [duty]
      cases m <;> rfl
  | setSpeed motor speed =>
    obtain ⟨duty, -⟩ := exec_setSpeed_next hb h
    rw [duty, Quad.get_set]
    simp only [eq_comm (a := m)]
  | _ => exact congrArg (Quad.get · m) (exec_leaves hb h rfl nofun).duty

/-! ### The tables (R14, R47) -/

/-- A completed command is on the board it was given to, also where the block was busy. -/
theorem exec_board {i : Instr} {s t : State} (h : exec i s = .next t) : t.board = s.board := by
  rw [exec_eq_issue] at h
  obtain ⟨u, settled, -, ran⟩ := issue_next h
  obtain ⟨-, board, -⟩ := settle_next settled
  obtain ⟨-, -, board', -⟩ := runLines_frame ran
  exact board'.trans board

/-- Settles O28: a step completes what is in progress or runs a command, and neither changes the board. -/
theorem noStepChangesTheTables : Obligations.NoStepChangesTheTables := by
  intro s t h
  rcases step_next h with ⟨-, settled⟩ | ⟨w, rest, i, -, -, ran⟩
  · obtain ⟨-, board, -⟩ := settle_next settled
    exact board
  · exact (exec_board ran : t.board = (s.setPending rest).board)

end Sys2Proof.Machine
end

section
/-! PROOFS. Laws of commands in sequence: the bit-pair write (R73), `SETDIR` (R83), and speed against direction (R80,
R84, R109). -/

namespace Sys2Proof.Machine

/-! ### The bit-pair write of different positions -/

theorem byte_ext {r r' : Byte} (h : ∀ k : Pos, r.getLsbD k = r'.getLsbD k) : r = r' :=
  BitVec.eq_of_getLsbD_eq fun k hk => h ⟨k, hk⟩

/-- The later of two writes of one pair wins. -/
theorem writePair_last_wins {a b : Pos} (hne : a ≠ b) (r : Byte) (x y x' y' : Bool) :
    writeBit (writeBit (writeBit (writeBit r a x) b y) a x') b y' = writeBit (writeBit r a x') b y' := by
  apply byte_ext
  intro k
  simp only [writePair_getLsbD hne]
  split_ifs <;> rfl

theorem writeBit_comm {a b : Pos} (hne : a ≠ b) (r : Byte) (x y : Bool) :
    writeBit (writeBit r a x) b y = writeBit (writeBit r b y) a x := by
  apply byte_ext
  intro k
  rw [writePair_getLsbD hne, writePair_getLsbD hne.symm]
  split_ifs with hA hB
  · exact absurd (hA.symm.trans hB) hne
  all_goals rfl

/-- Writes of two pairs with no position in common may be exchanged. -/
theorem writePair_comm {a b c d : Pos} (hac : a ≠ c) (had : a ≠ d) (hbc : b ≠ c) (hbd : b ≠ d) (r : Byte)
    (x y z w : Bool) :
    writeBit (writeBit (writeBit (writeBit r a x) b y) c z) d w =
      writeBit (writeBit (writeBit (writeBit r c z) d w) a x) b y := by
  rw [writeBit_comm hbc, writeBit_comm hac, writeBit_comm hbd, writeBit_comm had]

/-! ### One command after another -/

@[simp] theorem State.afterFrame_board (s : State) (r : Byte) : (s.afterFrame r).board = s.board := rfl

@[simp] theorem State.afterFrame_reg (s : State) (r : Byte) : (s.afterFrame r).reg = r := rfl

/-- A history goes on from the state after the frame of its first `SETPAIR`. -/
theorem runAll_setPair_cons {s : State} (hs : s.Inv) (hp : s.phase = .ready) {a b : Pos} (hab : a ≠ b) (x y : Bool)
    (rest : List Instr) :
    runAll (.setPair a x b y :: rest) s = runAll rest (s.afterFrame (writeBit (writeBit s.reg a x) b y)) := by
  rw [runAll, exec_setPair hs.idle hp (hs.frameReady hp) hab, andThen_next]

/-- A history goes on from the state after the frame of its first `SETDIR`. -/
theorem runAll_setDir_cons {s : State} (hs : s.Inv) (hp : s.phase = .ready) (motor : Byte) (dir : Direction)
    (rest : List Instr) :
    runAll (.setDir motor dir :: rest) s = runAll rest (s.afterFrame (regAfter s.board (.setDir motor dir) s.reg)) := by
  rw [runAll, exec_setDir hs.idle hp (hs.frameReady hp), andThen_next]

theorem runAll_setPair_setPair {s : State} (hs : s.Inv) (hp : s.phase = .ready) {a b c d : Pos} (hab : a ≠ b)
    (hcd : c ≠ d) (x y z w : Bool) :
    ∃ t, runAll [.setPair a x b y, .setPair c z d w] s = .next t ∧
      t.reg = writeBit (writeBit (writeBit (writeBit s.reg a x) b y) c z) d w :=
  ⟨_, by rw [runAll_setPair_cons hs hp hab, runAll_setPair_cons (hs.afterFrame hp _) hp hcd, runAll], rfl⟩

/-- Settles O30: each law is one of bytes, carried to the commands. -/
theorem pairWriteLaws : Obligations.PairWriteLaws := by
  intro s a b x y hs hp hab
  have run := exec_setPair hs.idle hp (hs.frameReady hp) hab x y
  have hs' := hs.afterFrame hp (writeBit (writeBit s.reg a x) b y)
  refine ⟨⟨_, run, fun k hA hB => writePair_getLsbD_other hA hB s.reg x y, _,
    exec_setPair hs'.idle hp (hs'.frameReady hp) hab x y, writePair_last_wins hab s.reg x y x y⟩, fun x' y' => ?_,
    fun c d z w hcd hac had hbc hbd => ?_, ?_⟩
  · obtain ⟨t, ht, hreg⟩ := runAll_setPair_setPair hs hp hab hab x y x' y'
    refine ⟨t, ht, ?_, ?_⟩
    · rw [hreg, writePair_getLsbD hab, if_pos rfl]
    · rw [hreg, writePair_getLsbD hab, if_neg hab.symm, if_pos rfl]
  · obtain ⟨t, ht, hreg⟩ := runAll_setPair_setPair hs hp hab hcd x y z w
    obtain ⟨u, hu, hreg'⟩ := runAll_setPair_setPair hs hp hcd hab z w x y
    exact ⟨t, u, ht, hu, by rw [hreg, hreg', writePair_comm hac had hbc hbd]⟩
  · rw [run, exec_setPair hs.idle hp (hs.frameReady hp) hab.symm, writeBit_comm hab]

/-! ### `SETDIR` (R83) -/

/-- The last of several `SETDIR` to one slot decides its two bits. -/
theorem regAfter_setDir_last_wins (b : Board) {motor motor' : Byte} (same : slotOf motor' = slotOf motor)
    (d e : Direction) (r : Byte) :
    regAfter b (.setDir motor' e) (regAfter b (.setDir motor d) r) = regAfter b (.setDir motor' e) r := by
  simp only [regAfter_setDir, same]
  exact writePair_last_wins (b.pair_bitA_ne_bitB _ _) r _ _ _ _

/-- Settles O31: `SETDIR` ends in `afterFrame` of its byte, which gives the direction to one slot, forgets the direction
before, and depends on the motor index through its slot only. -/
theorem setDirProperties : Obligations.SetDirProperties := by
  intro s m d hs hp
  have ready := hs.frameReady hp
  refine ⟨⟨_, exec_setDir hs.idle hp ready m d, fun n hn => ?_, ?_, rfl, rfl, fun e => ?_⟩, ?_, fun q => ?_⟩
  · exact (directionIn_regAfter_setDir s.board m d s.reg n).trans (if_neg hn.symm)
  · exact (directionIn_regAfter_setDir s.board m d s.reg _).trans (if_pos rfl)
  · have same :
        regAfter s.board (.setDir m d) (regAfter s.board (.setDir m e) (regAfter s.board (.setDir m d) s.reg)) =
          regAfter s.board (.setDir m d) s.reg := by
      rw [regAfter_setDir_last_wins s.board rfl, regAfter_setDir_last_wins s.board rfl]
    have run := runAll_setDir_cons hs hp m d [.setDir m e, .setDir m d]
    rw [runAll_setDir_cons (hs.afterFrame hp _) hp, runAll_setDir_cons ((hs.afterFrame hp _).afterFrame hp _) hp,
      runAll] at run
    simp only [State.afterFrame_board, State.afterFrame_reg, same] at run
    exact ⟨_, run, rfl, rfl⟩
  · rw [exec_setDir hs.idle hp ready, exec_setDir hs.idle hp ready, regAfter_setDir, regAfter_setDir, slotOf_add_four]
  · rw [exec_setDir hs.idle hp ready, exec_setDir (s := { s with duty := q }) hs.idle hp ready]
    rfl

/-! ### Speed and direction (R80, R84, R109) -/

theorem motorMayTurn_iff (s : State) (n : Slot) :
    s.motorMayTurn n = true ↔ (s.direction n = .forward ∨ s.direction n = .backward) ∧ s.duty.get n ≠ 0#8 := by
  simp [State.motorMayTurn]

theorem motorMayTurn_of_duty_zero {s : State} {n : Slot} (h : s.duty.get n = 0#8) : s.motorMayTurn n = false := by
  rw [Bool.eq_false_iff, ne_eq, motorMayTurn_iff]
  exact fun ⟨_, moving⟩ => moving h

theorem motorMayTurn_of_release {s : State} {n : Slot} (h : s.direction n = .release) : s.motorMayTurn n = false := by
  rw [Bool.eq_false_iff, ne_eq, motorMayTurn_iff, h]
  rintro ⟨forward | backward, -⟩
  · cases forward
  · cases backward

/-- Settles O34: `SETSPEED` leaves `REG` and `SETDIR` the duties; after `NEW 1` every duty is 255 and every direction
Release. -/
theorem speedAndDirectionAreIndependent : Obligations.SpeedAndDirectionAreIndependent := by
  intro s hs hp
  refine ⟨fun m => ⟨_, exec_setSpeed hs.idle hp m 0#8, fun n => rfl, ?_⟩, fun m d => ?_, ?_⟩
  · apply motorMayTurn_of_duty_zero
    rw [Quad.get_set, if_pos rfl]
  · refine ⟨_, exec_setDir hs.idle hp (hs.frameReady hp) m d, rfl, ?_⟩
    have direction : (s.afterFrame (regAfter s.board (.setDir m d) s.reg)).direction (slotOf m) = d :=
      (directionIn_regAfter_setDir s.board m d s.reg (slotOf m)).trans (if_pos rfl)
    rw [motorMayTurn_iff, direction]
    rfl
  · obtain ⟨draws, e⟩ := exec_new true hs.idle hs.clock_not_high
    exact ⟨_, e, fun n => ⟨by cases n <;> rfl, motorMayTurn_of_release (directionIn_zero _)⟩⟩

end Sys2Proof.Machine
end

section
/-! PROOFS. The command port and the lines in progress: what a step runs (R67, R113), `BUSY` along the lines of a
command (R16), resuming and waiting (R67, R94), and the primitives on the pins (R18, R19). -/

namespace Sys2Proof.Machine

/-! ### What a step runs (R59, R67) -/

theorem step_command {s : State} {w : Word} {rest : List Word} {i : Instr} (presented : s.pending = w :: rest)
    (decoded : decode w = .ok i) : step s = exec i (s.setPending rest) := by
  simp only [step, presented, decoded]

theorem step_waits {s : State} (presented : s.pending = []) (hb : s.busy = false) : step s = .next s := by
  simp only [step, presented, settle_idle hb]

theorem step_reserved {s : State} {w : Word} {rest : List Word} {e : DecodeError} (presented : s.pending = w :: rest)
    (hb : s.busy = false) (reserved : decode w = .error e) : step s = .refused .reservedOpcode := by
  simp only [step, presented, reserved, settle_idle hb, andThen_next]

/-- Settles O35: the two cases of `step` that do not refuse. -/
theorem stepRunsThePresentedCommand : Obligations.StepRunsThePresentedCommand :=
  fun _ _ _ _ => ⟨step_command, step_waits⟩

/-- Settles O36: the word on the port is the command's own, which decodes to it; taken from the port, the port is as
before. -/
theorem presentedWordRunsItsCommand : Obligations.PresentedWordRunsItsCommand := by
  intro s i
  have word : tableWord 20 (encode i).toNat = encode i := by
    rw [tableWord, Nat.mod_eq_of_lt (encode i).isLt, BitVec.ofNat_toNat, BitVec.setWidth_eq]
  have decoded : decode (tableWord 20 (encode i).toNat) = .ok i := by rw [word, decode_encode]
  exact step_command (s := s.withFetchWord 20 (encode i).toNat) rfl decoded

/-- Settles O3: the opcodes that are no command are counted off, and no command is refused as a reserved opcode. -/
theorem exactlyTheReservedOpcodesAreRefused : Obligations.ExactlyTheReservedOpcodesAreRefused := by
  intro w
  refine ⟨reserved_opcode_iff w, fun s rest hb presented => ⟨fun refused => ?_, fun ⟨e, reserved⟩ =>
    step_reserved presented hb reserved⟩⟩
  cases decoded : decode w with
  | error e => exact ⟨e, rfl⟩
  | ok i =>
    rw [step_command presented decoded, exec_refused_iff (by exact hb), commandRefusal_eq_some] at refused
    simp at refused

/-! ### `BUSY` along the lines (R16, R67) -/

/-- A line of a command in progress is taken from the lines to do and keeps `BUSY`. -/
theorem advance_cons {s t : State} {op : Micro} {rest : List Micro} (hi : s.inflight = op :: rest)
    (h : advance s = .next t) : t.busy = s.busy ∧ t.inflight = rest := by
  rw [advance, hi] at h
  obtain ⟨-, busy, -, inflight⟩ := perform_frame h
  exact ⟨busy, inflight⟩

theorem advance_nil {s : State} (hi : s.inflight = []) : advance s = .next (s.setBusy false) := by
  rw [advance, hi]

/-- After `n` lines, of those there were, `BUSY` is as before and the others are still to do. -/
theorem advanceBy_inflight_drop {n : Nat} {s t : State} (hn : n ≤ s.inflight.length) (h : advanceBy n s = .next t) :
    t.busy = s.busy ∧ t.inflight = s.inflight.drop n := by
  induction n generalizing s with
  | zero =>
    cases h
    exact ⟨rfl, rfl⟩
  | succ n ih =>
    obtain ⟨u, hu, ht⟩ := andThen_eq_next.1 h
    cases lines : s.inflight with
    | nil => simp [lines] at hn
    | cons op rest =>
      obtain ⟨busy, inflight⟩ := advance_cons lines hu
      subst inflight
      obtain ⟨busy', inflight'⟩ := ih (by simpa [lines] using hn) ht
      exact ⟨busy'.trans busy, by rw [inflight', List.drop_succ_cons]⟩

/-- Settles O42: the lines are taken one by one and keep `BUSY`; running them ends idle, and is one line more. -/
theorem busyFromAcceptanceToTheLastLine : Obligations.BusyFromAcceptanceToTheLastLine := by
  intro s lines
  refine ⟨fun n u hn h => advanceBy_inflight_drop hn h, fun t h => ?_⟩
  obtain ⟨busy, inflight, -⟩ := runLines_frame h
  exact ⟨busy, inflight, (advanceBy_inflight (accept lines s)).trans h⟩

/-! ### Resuming (R94) and waiting (R67) -/

/-- An idle block stays idle. -/
theorem advance_idle {s t : State} (hb : s.busy = false) (h : advance s = .next t) : t.busy = false := by
  cases lines : s.inflight with
  | nil =>
    rw [advance_nil lines] at h
    exact Host.Outcome.next.inj h ▸ rfl
  | cons op rest =>
    obtain ⟨busy, -⟩ := advance_cons lines h
    exact busy.trans hb

theorem advanceBy_idle {n : Nat} {s t : State} (hb : s.busy = false) (h : advanceBy n s = .next t) :
    t.busy = false := by
  induction n generalizing s with
  | zero => exact Host.Outcome.next.inj h ▸ hb
  | succ n ih =>
    obtain ⟨u, hu, ht⟩ := andThen_eq_next.1 h
    exact ih (advance_idle hb hu) ht

theorem settle_busy {s : State} (hb : s.busy = true) : settle s = runLines s.inflight s := if_pos hb

/-- A command goes on from its next line as from the line before. -/
theorem settle_advance {s t : State} (hb : s.busy = true) (h : advance s = .next t) (htb : t.busy = true) :
    settle t = settle s := by
  cases lines : s.inflight with
  | nil =>
    rw [advance_nil lines] at h
    obtain rfl := Host.Outcome.next.inj h
    exact absurd htb Bool.false_ne_true
  | cons op rest =>
    obtain ⟨-, inflight⟩ := advance_cons lines h
    rw [advance, lines] at h
    rw [settle_busy htb, settle_busy hb, lines, inflight, runLines_cons]
    exact (congrArg (andThen · (runLines rest)) h).symm

/-- Settles O43: each line of a busy block leaves the end of the command where it was; a block that has become idle does
not become busy again. -/
theorem commandResumedAtAnyLineEndsTheSame : Obligations.CommandResumedAtAnyLineEndsTheSame := by
  intro s u n hb h hub
  induction n generalizing s with
  | zero => rw [Host.Outcome.next.inj h]
  | succ n ih =>
    obtain ⟨v, hv, hu⟩ := andThen_eq_next.1 h
    have hvb : v.busy = true := by
      by_contra idle
      rw [advanceBy_idle (Bool.not_eq_true _ ▸ idle) hu] at hub
      exact absurd hub Bool.false_ne_true
    rw [ih v hvb hu, settle_advance hb hv hvb]

/-- What is presented waits for the command in progress: then it is as if presented to the idle block. -/
theorem exec_after_settle (i : Instr) (s : State) : exec i s = andThen (settle s) (exec i) := by
  cases settled : settle s with
  | next t =>
    have idle := settle_idle (settle_next settled).1
    simp only [exec_eq_issue, issue, settled, idle, andThen_next]
  | fault e => simp only [exec_eq_issue, issue, settled, andThen_fault]
  | refused e => simp only [exec_eq_issue, issue, settled, andThen_refused]

/-- Settles O44: by `exec_after_settle`; completing what is in progress ends idle. -/
theorem commandPresentedWhileBusyWaits : Obligations.CommandPresentedWhileBusyWaits :=
  fun s i _ => ⟨exec_after_settle i s, fun _ h => (settle_next h).1⟩

/-! ### The primitives on the pins (R18, R19) -/

/-- Settles O10: `PinConfig` emits its event, and drives the pin where it was undriven. -/
theorem pinConfigDrivesOnlyAnUndrivenPin : Obligations.PinConfigDrivesOnlyAnUndrivenPin := by
  intro s p t
  refine ⟨fun driven => ?_, fun undriven hp => ?_, fun undriven hp => ?_, rfl⟩
  · cases h : s.pins.get p with
    | z => exact absurd h driven
    | driven l =>
      rw [perform, pinConfig, h]
      rfl
  · rw [perform, pinConfig, undriven]
    cases p with
    | enableN => exact absurd rfl hp
    | _ => rfl
  · subst hp
    refine ⟨Config.draw s.draws, s.draws + 1, ?_⟩
    rw [perform, pinConfig, undriven]
    rfl

theorem risingEdge_driven (old l : Level) : risingEdge (.driven old) l = decide (old = false ∧ l = true) := by
  cases old <;> cases l <;> rfl

/-- Settles O11: the event and the level by `pinWrite`; the device by the rising edge, of `CLOCK` or `LATCH`. -/
theorem pinWriteDrivesThePinAndTheDeviceReacts : Obligations.PinWriteDrivesThePinAndTheDeviceReacts := by
  intro s p l old d hp hd
  rw [perform, pinWrite, hp]
  cases p with
  | data => rfl
  | enableN => rfl
  | latch => cases old <;> cases l <;> rfl
  | clock =>
    by_cases rise : old = false ∧ l = true
    · obtain ⟨rfl, rfl⟩ := rise
      exact congrArg Host.Outcome.next (env_clock_rise hd)
    · have flat : risingEdge (.driven old) l = false := (risingEdge_driven old l).trans (decide_eq_false rise)
      simp only [env, flat, rise, and_false, Bool.false_eq_true, reduceCtorEq, if_false]
      rfl

end Sys2Proof.Machine
end
